-- ==== Sys2Proof/Word.lean ====
section
/-! DEFINITION. The word types of the block (00_scope.md R11 to R13): bytes, the 64-bit registers, the 128-bit generator words
and the 256-bit position. All unsigned; `BitVec.toInt` is the spec's `s256val` where a 256-bit word is read as signed. -/

namespace Sys2Proof

/-- One byte of a raw seed or of an entropy answer. -/
abbrev Byte := BitVec 8
/-- A register of the window, u64 (R11 REG_WIDTH). -/
abbrev Word := BitVec 64
/-- State, increment, multiplier, offset: u128 (R11 STATE_WIDTH). -/
abbrev U128 := BitVec 128
/-- The position and the view P: 256 bits (R11 POS_WIDTH). -/
abbrev U256 := BitVec 256

end Sys2Proof
end

