-- ==== Sys2Proof/Syntax.lean ====
section
/-! DEFINITION. The commands of the block (30_encoding.md R72), one constructor per row of the opcode table, and the raw
fields of a command word (R70). Commands carry no operands: every input comes from the operand bank (R71). -/

namespace Sys2Proof

/-- The sixteen commands of 30_encoding.md R72. -/
inductive Instr where
  /-- NOP: do nothing (R210). -/
  | nop
  /-- SEED.PAIR: seed from an explicit (state, increment) pair (R161). -/
  | seedPair
  /-- SEED.STATE: seed from a state alone (R162). -/
  | seedState
  /-- SEED.ENTROPY: seed from 32 bytes of the entropy source (R163). -/
  | seedEntropy
  /-- NEXT64: one raw draw (R166). -/
  | next64
  /-- NEXTF64: one raw draw as a float in [0, 1) (R167). -/
  | nextF64
  /-- BOUNDED: an unbiased integer below a bound (R200). -/
  | bounded
  /-- ADVANCE: move by a signed number of raw steps (R142). -/
  | advance
  /-- SEEK: go to a logical position (R169). -/
  | seek
  /-- RESET: go to logical position 0 (R170). -/
  | reset
  /-- JUMPED: compute a jumped clone (R171). -/
  | jumped
  /-- IMPORT: load a (state, increment, position) record (R172). -/
  | importRecord
  /-- INV: modular inverse of an odd operand (R132). -/
  | inv
  /-- AFFPOW: raise an affine transform to a power (R141). -/
  | affPow
  /-- AFFCOMP: compose two affine transforms (R140). -/
  | affComp
  /-- DXSM: the output permutation of an operand (R168). -/
  | dxsm
deriving DecidableEq, Repr

/-- The fields of a command word, format CMDW (R70). -/
structure CmdWord where
  /-- Bits 7:0, the operation selector. -/
  op : BitVec 8
  /-- Bits 9:8, the seed mode. -/
  smode : BitVec 2
  /-- Bits 63:10, reserved. -/
  rsv : BitVec 54
deriving DecidableEq, Repr

end Sys2Proof
end

