-- ==== Sys2Proof/WellFormed.lean ====
section
/-! DEFINITION. When a command word is legal (30_encoding.md R74), as four checks on its raw fields. An `Instr` has no operand
and so is always well-formed; what can be ill-formed is the word. -/

namespace Sys2Proof

/-- "RSV is not 0" makes a word illegal. -/
def CmdWord.rsvIsZero (c : CmdWord) : Bool := c.rsv == 0

/-- "OP is reserved (0x0E to 0xFF)" makes a word illegal. -/
def CmdWord.opIsDefined (c : CmdWord) : Bool := decide (c.op.toNat < 0x0E)

/-- "OP = 0x01 and SMODE = 3" makes a word illegal. -/
def CmdWord.seedModeIsDefined (c : CmdWord) : Bool := !(c.op == 0x01 && c.smode == 3)

/-- "OP is not 0x01 and SMODE is not 0" makes a word illegal. -/
def CmdWord.modeOnlyForSeed (c : CmdWord) : Bool := c.op == 0x01 || c.smode == 0

/-- A legal command word: none of R74's conditions holds. -/
def CmdWord.wf (c : CmdWord) : Bool :=
  c.rsvIsZero && c.opIsDefined && c.seedModeIsDefined && c.modeOnlyForSeed

end Sys2Proof
end

