-- ==== Sys2Proof/Decode.lean ====
section
/-! DEFINITION. The decoder of 30_encoding.md R76, total on every 64-bit word and rejecting by name, and after it the encoder
of R72. -/

namespace Sys2Proof

/-- Why a word is illegal (R74). All four complete with E_ILLEGAL. -/
inductive Illegal where
  /-- RSV is not 0. -/
  | reservedBits
  /-- OP = 0x01 and SMODE = 3. -/
  | reservedSeedMode
  /-- OP is not 0x01 and SMODE is not 0. -/
  | seedModeOnOther
  /-- OP is 0x0E to 0xFF. -/
  | reservedOp
deriving DecidableEq, Repr

/-- OP = w[7:0]. -/
def opField (w : Word) : BitVec 8 := w.extractLsb' 0 8
/-- SMODE = w[9:8]. -/
def smodeField (w : Word) : BitVec 2 := w.extractLsb' 8 2
/-- RSV = w[63:10]. -/
def rsvField (w : Word) : BitVec 54 := w.extractLsb' 10 54

/-- The three fields of a word (R70). -/
def cmdWordOf (w : Word) : CmdWord := { op := opField w, smode := smodeField w, rsv := rsvField w }

/-- The seed variants of OP = 0x01 (R73). -/
def decodeSeed (smode : BitVec 2) : Except Illegal Instr :=
  match smode.toNat with
  | 0 => .ok .seedPair
  | 1 => .ok .seedState
  | 2 => .ok .seedEntropy
  | _ => .error .reservedSeedMode

/-- The command an OP other than 0x01 selects (R72, R76). -/
def decodeOp (op : BitVec 8) : Except Illegal Instr :=
  match op.toNat with
  | 0x00 => .ok .nop
  | 0x02 => .ok .next64
  | 0x03 => .ok .nextF64
  | 0x04 => .ok .bounded
  | 0x05 => .ok .advance
  | 0x06 => .ok .seek
  | 0x07 => .ok .reset
  | 0x08 => .ok .jumped
  | 0x09 => .ok .importRecord
  | 0x0A => .ok .inv
  | 0x0B => .ok .affPow
  | 0x0C => .ok .affComp
  | 0x0D => .ok .dxsm
  | _ => .error .reservedOp

/-- `Decode(w)` of R76. -/
def decode (w : Word) : Except Illegal Instr :=
  if rsvField w ≠ 0 then .error .reservedBits
  else if opField w = 0x01 then decodeSeed (smodeField w)
  else if smodeField w ≠ 0 then .error .seedModeOnOther
  else decodeOp (opField w)

/-- The OP column of R72. -/
def Instr.op : Instr → BitVec 8
  | .nop => 0x00
  | .seedPair => 0x01
  | .seedState => 0x01
  | .seedEntropy => 0x01
  | .next64 => 0x02
  | .nextF64 => 0x03
  | .bounded => 0x04
  | .advance => 0x05
  | .seek => 0x06
  | .reset => 0x07
  | .jumped => 0x08
  | .importRecord => 0x09
  | .inv => 0x0A
  | .affPow => 0x0B
  | .affComp => 0x0C
  | .dxsm => 0x0D

/-- The SMODE column of R72. -/
def Instr.smode : Instr → BitVec 2
  | .nop => 0
  | .seedPair => 0
  | .seedState => 1
  | .seedEntropy => 2
  | .next64 => 0
  | .nextF64 => 0
  | .bounded => 0
  | .advance => 0
  | .seek => 0
  | .reset => 0
  | .jumped => 0
  | .importRecord => 0
  | .inv => 0
  | .affPow => 0
  | .affComp => 0
  | .dxsm => 0

/-- "Each legal command is therefore exactly one 64-bit word: zext_64({SMODE, OP})" (R72). -/
def encode (i : Instr) : Word := (i.smode ++ i.op).setWidth 64

/-- The instruction the decoder reads from an instruction whose bits are `w`, of which the opcode table gives `nbits`. -/
def decodeTableWord (nbits w : Nat) : Option Instr :=
  let bits := w % 2 ^ nbits
  if bits < 2 ^ 64 then (decode (BitVec.ofNat 64 bits)).toOption else none

end Sys2Proof
end

