-- ==== Sys2Proof/Config.lean ====
section
/-! DEFINITION. What the spec leaves to the platform or to the outside world: the OPEN parameters of 00_scope.md R11 and the
free draws of the entropy source (43_generator.md R165). Each is opaque: nothing in Lean can evaluate it, so a theorem holds
whatever its value is. -/

namespace Sys2Proof

/-- What the entropy source does when a SEED.ENTROPY consults it (R165): it answers 32 bytes, it answers `Unavailable`, or it
never answers. -/
inductive EntropyAnswer where
  /-- `Unavailable`. -/
  | unavailable
  /-- 32 bytes, `e[0]` first. -/
  | bytes (e : Vector Byte 32)
  /-- The source never answers (I2): the command does not complete. -/
  | silent
deriving DecidableEq, Repr, Inhabited

/-- JUMP_DISTANCE (R11, I5, log 10): a u128 whose value the source does not give. -/
opaque Config.jumpDistance : U128

/-- ENTROPY_PRESENT (R11, I4, log 9): whether an entropy source is wired to the block. -/
opaque Config.entropyPresent : Bool

/-- BASE_ADDR (R11, R50, I7, log 6): where the platform places the window. -/
opaque Config.baseAddr : Nat

/-- The entropy source's answers (R165, I3, log 11): the n-th one is a free value, under no law. -/
opaque Config.entropyAnswer : Nat → EntropyAnswer

/-- DESIGN CHOICE (R202, log 13): how many rejected draws one engine turn of a BOUNDED goes through before it is left pending
for the next turn; each further turn goes through one more. No result depends on it. -/
def Config.lemireFuel : Nat := 64

end Sys2Proof
end

