-- ==== Sys2Proof/Machine/State.lean ====
section
/-! DEFINITION. The state of the block as plain data (10_state.md R20 and the model's own input fields), the reasons a step can
stop, and the state after hardware reset (R41). -/

namespace Sys2Proof.Machine

/-- The generator registers (R30 to R32) with the flag G.seeded (R25). -/
structure Gen where
  /-- G.state, the live LCG register (R30). -/
  state : U128
  /-- G.inc, the increment (R30). -/
  inc : U128
  /-- G.pos, the logical position, two's complement (R31). -/
  pos : U256
  /-- G.srec_state (R32). -/
  srecState : U128
  /-- G.srec_inc (R32). -/
  srecInc : U128
  /-- G.seeded (R25). -/
  seeded : Bool
deriving DecidableEq, Repr

/-- Eight 64-bit registers: the operand bank OP0..OP7 (R33) or the result bank RES0..RES7 (R34). -/
structure Bank where
  r0 : Word
  r1 : Word
  r2 : Word
  r3 : Word
  r4 : Word
  r5 : Word
  r6 : Word
  r7 : Word
deriving DecidableEq, Repr

/-- The outcome codes of 60_exceptions.md R220; codes 7 to 15 are never produced (I12). -/
inductive ECode where
  /-- 0, success. -/
  | ok
  /-- 1, E_ILLEGAL: the command word is illegal. -/
  | illegal
  /-- 2, E_UNSEEDED: G.seeded = 0. -/
  | unseeded
  /-- 3, E_BOUND: bound 0 or above 2^64. -/
  | bound
  /-- 4, E_EVEN: INV operand even. -/
  | even
  /-- 5, E_NO_ENTROPY: no entropy source, or the draw answered Unavailable. -/
  | noEntropy
  /-- 6, E_POS_RANGE: a position update would leave [-2^255, 2^255 - 1]. -/
  | posRange
deriving DecidableEq, Repr

/-- What the bus answered to the last host access (model's own field, log 15). -/
inductive Reply where
  /-- No host access yet. -/
  | none
  /-- A write was accepted by the bus (R42, R223). -/
  | accepted
  /-- A read returned this value (R53). -/
  | data (v : Word)
deriving DecidableEq, Repr

/-- What can happen to the block next (R228, log 1): a host access, a poll, a hardware reset, or the engine's turn. -/
inductive Event where
  /-- `MemRead(off, size)` (R15). -/
  | hostRead (off size : Nat)
  /-- `MemWrite(off, size, v)` (R15). -/
  | hostWrite (off size : Nat) (v : Word)
  /-- WAIT: read STATUS until BUSY = 0 (R81). -/
  | hostWait
  /-- The hardware reset input (R250). -/
  | hardwareReset
  /-- The engine's turn (R212). -/
  | engine
deriving DecidableEq, Repr

/-- The whole state: the spec's registers, then the model's own input fields. The flags come before the wide registers so that two
states that differ in a flag are quickly told apart by the kernel. -/
structure State where
  /-- STATUS.BUSY (R24). -/
  busy : Bool
  /-- STATUS.ECODE (R26). -/
  ecode : ECode
  /-- The generator registers (R30 to R32, R25). -/
  gen : Gen
  /-- OP0..OP7 (R33). -/
  op : Bank
  /-- RES0..RES7 (R34). -/
  res : Bank
  /-- CMD (R29). -/
  cmd : Word
  /-- STATUS.OVR (R27). -/
  ovr : Bool
  /-- STATUS.ENT, the parameter ENTROPY_PRESENT (R28, log 9); no event changes it. -/
  ent : Bool
  /-- The constant register JUMP_DISTANCE (R35, log 10); no event changes it. -/
  jump : U128
  /-- Model's own: the bus's answer to the last host access (log 15). -/
  reply : Reply
  /-- Model's own: the events still to come, the next first (log 1). -/
  schedule : List Event
  /-- Model's own: what the entropy source does at the next consultation (R165, log 11). -/
  entropy : EntropyAnswer
  /-- Model's own: how many free answers have been taken from `Config.entropyAnswer` (log 11). -/
  entropyUses : Nat
  /-- Model's own: engine turns the pending command has had without completing (R202, log 13). -/
  waited : Nat
deriving DecidableEq, Repr

/-- The model's only faults: a refused host access, which has no effect and gets a bus error response (20_memory.md R51, R52;
60_exceptions.md R223). Raised by `checkAccess` for `hostRead` and `hostWrite`. Safe: the spec makes it a fault of the host's
step, and the block's state is the one before the access (log 26). -/
inductive Fault where
  /-- Raised for an access of a size other than 8 bytes (R52). Safe. -/
  | accessSize (size : Nat)
  /-- Raised for an 8-byte access at an offset that is not a multiple of 8 (R52). Safe. -/
  | misaligned (off : Nat)
  /-- Raised for an aligned 8-byte access at an offset R36 does not list (R51). Safe. -/
  | unmapped (off : Nat)
deriving DecidableEq, Repr

/-- Reasons a step is refused. -/
inductive Refusal where
  /-- Raised by `exec`'s arm of an instruction that has no meaning yet; no arm raises it now. Safe. -/
  | notModelled (mnemonic : String)
deriving DecidableEq, Repr

/-- All eight registers 0. -/
def Bank.zero : Bank := ⟨0, 0, 0, 0, 0, 0, 0, 0⟩

/-- The generator registers after hardware reset (R41): all 0, not seeded. -/
def Gen.reset : Gen := ⟨0, 0, 0, 0, 0, false⟩

/-- The block right after hardware reset (R41). `ent` and `jump` hold the open parameters. The last five fields are the
model's own (log 21). -/
def State.reset : State where
  busy := false
  ecode := .ok
  gen := Gen.reset
  op := Bank.zero
  res := Bank.zero
  cmd := 0
  ovr := false
  ent := Config.entropyPresent
  jump := Config.jumpDistance
  reply := .none
  schedule := []
  entropy := Config.entropyAnswer 0
  entropyUses := 1
  waited := 0

end Sys2Proof.Machine
end

