-- ==== Sys2Proof/Machine/Flags.lean ====
section
/-! DEFINITION. The STATUS word (10_state.md R23 to R28) and the outcome codes' numbers (60_exceptions.md R220). The block has no
condition codes besides STATUS (R43). -/

namespace Sys2Proof.Machine

/-- The number of an outcome code (R220). -/
def ECode.code : ECode → BitVec 4
  | .ok => 0
  | .illegal => 1
  | .unseeded => 2
  | .bound => 3
  | .even => 4
  | .noEntropy => 5
  | .posRange => 6

/-- STATUS.ERR is `ECODE != 0` (R26). -/
def State.err (s : State) : Bool := s.ecode.code != 0

/-- STATUS.SEEDED reads G.seeded (R25). -/
def State.seeded (s : State) : Bool := s.gen.seeded

/-- The STATUS word as a read returns it (R23): bit 0 BUSY, 1 SEEDED, 2 ERR, 3 reads 0, 7:4 ECODE, 8 OVR, 9 ENT, 63:10 read
0. -/
def State.statusWord (s : State) : Word :=
  (0 : BitVec 54) ++ BitVec.ofBool s.ent ++ BitVec.ofBool s.ovr ++ s.ecode.code ++ (0 : BitVec 1) ++ BitVec.ofBool s.err
    ++ BitVec.ofBool s.seeded ++ BitVec.ofBool s.busy

/-- The bit a host writes 1 to in order to clear OVR (R27). -/
def clearsOvr (v : Word) : Bool := v.getLsbD 8

end Sys2Proof.Machine
end

