-- ==== Sys2Proof/Machine/Arith.lean ====
section
/-! DEFINITION. Wide-integer arithmetic and the pure functions of 40_arith.md sections 1 to 3 and 6, and the modular inverse of
41_modinv.md. `+`, `*` and `-` on `U128` are add128, mul128 and the arithmetic modulo 2^128 of R100: there is no overflow
error. -/

namespace Sys2Proof.Machine

/-- `hi64(s) = s[127:64]` (R101). -/
def hi64 (s : U128) : Word := s.extractLsb' 64 64
/-- `lo64(s) = s[63:0]` (R101). -/
def lo64 (s : U128) : Word := s.extractLsb' 0 64

/-- MUL (R102). -/
def lcgMul : U128 := 0x0000000000000000DA942042E4DD58B5
/-- DXSM_MUL (R103): the low 64 bits of MUL, as 90_conflicts.md C2 decides. -/
def dxsmMul : Word := 0xDA942042E4DD58B5
/-- MULINV (R104): the inverse of MUL modulo 2^128. -/
def lcgMulInv : U128 := 0x0CD365D2CB1A6A6C8B838D0354EAD59D

/-- The LCG step, `Step(s, inc)` (R105). -/
def lcgStep (s inc : U128) : U128 := s * lcgMul + inc

/-- The DXSM output permutation (R106); the shifts are logical. -/
def dxsmPermute (s : U128) : Word :=
  let hi := hi64 s
  let lo := lo64 s ||| 1
  let hi := hi ^^^ (hi >>> 32)
  let hi := hi * dxsmMul
  let hi := hi ^^^ (hi >>> 48)
  hi * lo

/-- `F64(x)` (R116): the binary64 bits of `(x >> 11) * 2^-53`. -/
def f64 (x : Word) : Word :=
  let k := (x >>> 11).toNat
  if k = 0 then 0
  else
    let e := k.log2
    BitVec.ofNat 64 (((e + 970) <<< 52) ||| ((k <<< (52 - e)) % 2 ^ 52))

/-- The loop of R130: `n` refinements left, `b` the present precision, `i` the iterate. The remainder is the non-negative one
of R13. -/
def modInvLoop (a : Int) : Nat → Nat → Int → Int
  | 0, _, i => i
  | n + 1, b, i =>
    let nb := min (2 * b) 128
    modInvLoop a n nb ((i * (2 - a * i)) % 2 ^ nb)

/-- `ModInv(a)` (R130): seven refinements, b = 2, 4, 8, 16, 32, 64, 128. The closing check of R130 is "always true for odd a"
and has no effect (log 19). -/
def modInv (a : U128) : U128 := BitVec.ofInt 128 (modInvLoop a.toNat 7 1 1)

/-- The number a byte string denotes, first byte most significant (R163, R175; SEED_BYTE_ORDER, log 14). -/
def bigEndian (bytes : List Byte) : Nat := bytes.foldl (fun acc b => 256 * acc + b.toNat) 0

end Sys2Proof.Machine
end

