-- ==== Sys2Proof/Machine/Operands.lean ====
section
/-! DEFINITION. Every operand form of the block: the wide views of the operand bank and of the result bank (00_scope.md R14,
30_encoding.md R71). -/

namespace Sys2Proof.Machine

/-- `OP[i]` and `RES[i]` (R14). -/
def Bank.get (b : Bank) (i : Fin 8) : Word :=
  match i with
  | 0 => b.r0
  | 1 => b.r1
  | 2 => b.r2
  | 3 => b.r3
  | 4 => b.r4
  | 5 => b.r5
  | 6 => b.r6
  | 7 => b.r7

/-- `OP[i] <- v` and `RES[i] <- v` (R14). -/
def Bank.set (b : Bank) (i : Fin 8) (v : Word) : Bank :=
  match i with
  | 0 => { b with r0 := v }
  | 1 => { b with r1 := v }
  | 2 => { b with r2 := v }
  | 3 => { b with r3 := v }
  | 4 => { b with r4 := v }
  | 5 => { b with r5 := v }
  | 6 => { b with r6 := v }
  | 7 => { b with r7 := v }

/-- `A = {OP[1], OP[0]}`. -/
def State.opA (s : State) : U128 := s.op.r1 ++ s.op.r0
/-- `B = {OP[3], OP[2]}`. -/
def State.opB (s : State) : U128 := s.op.r3 ++ s.op.r2
/-- `C = {OP[5], OP[4]}`. -/
def State.opC (s : State) : U128 := s.op.r5 ++ s.op.r4
/-- `D = {OP[7], OP[6]}`. -/
def State.opD (s : State) : U128 := s.op.r7 ++ s.op.r6
/-- `P = {OP[7], OP[6], OP[5], OP[4]}`; it overlaps C and D. -/
def State.opP (s : State) : U256 := s.op.r7 ++ s.op.r6 ++ s.op.r5 ++ s.op.r4

/-- `s256val(P)` (R13): P read as signed, as ADVANCE, SEEK, JUMPED and IMPORT do (R71). -/
def State.opPSigned (s : State) : Int := s.opP.toInt

/-- `R <- v`: RES1:RES0. -/
def Bank.setR (b : Bank) (v : U128) : Bank := { b with r0 := lo64 v, r1 := hi64 v }
/-- `S <- v`: RES3:RES2. -/
def Bank.setS (b : Bank) (v : U128) : Bank := { b with r2 := lo64 v, r3 := hi64 v }
/-- `Q <- v`: RES7:RES4. -/
def Bank.setQ (b : Bank) (v : U256) : Bank :=
  { b with
    r4 := v.extractLsb' 0 64
    r5 := v.extractLsb' 64 64
    r6 := v.extractLsb' 128 64
    r7 := v.extractLsb' 192 64 }

end Sys2Proof.Machine
end

