-- ==== Sys2Proof/Machine/Registers.lean ====
section
/-! DEFINITION. The register map of the window (10_state.md R36) and what a read of each register returns (20_memory.md R53). -/

namespace Sys2Proof.Machine

/-- The registers of the window (R36). -/
inductive Reg where
  | id
  | status
  | cmd
  | op (i : Fin 8)
  | res (i : Fin 8)
  | stateLo
  | stateHi
  | incLo
  | incHi
  | pos0
  | pos1
  | pos2
  | pos3
  | srecStateLo
  | srecStateHi
  | srecIncLo
  | srecIncHi
  | mulLo
  | mulHi
  | dxsmMul
  | jumpLo
  | jumpHi
  | mulInvLo
  | mulInvHi
deriving DecidableEq, Repr

/-- The offset column of R36. -/
def Reg.offset : Reg → Nat
  | .id => 0x000
  | .status => 0x008
  | .cmd => 0x010
  | .op i => 0x020 + 8 * i.val
  | .res i => 0x060 + 8 * i.val
  | .stateLo => 0x0A0
  | .stateHi => 0x0A8
  | .incLo => 0x0B0
  | .incHi => 0x0B8
  | .pos0 => 0x0C0
  | .pos1 => 0x0C8
  | .pos2 => 0x0D0
  | .pos3 => 0x0D8
  | .srecStateLo => 0x0E0
  | .srecStateHi => 0x0E8
  | .srecIncLo => 0x0F0
  | .srecIncHi => 0x0F8
  | .mulLo => 0x100
  | .mulHi => 0x108
  | .dxsmMul => 0x110
  | .jumpLo => 0x118
  | .jumpHi => 0x120
  | .mulInvLo => 0x128
  | .mulInvHi => 0x130

/-- The rows of R36. -/
def allRegs : List Reg :=
  let control : List Reg := [.id, .status, .cmd]
  let ops : List Reg := [.op 0, .op 1, .op 2, .op 3, .op 4, .op 5, .op 6, .op 7]
  let results : List Reg := [.res 0, .res 1, .res 2, .res 3, .res 4, .res 5, .res 6, .res 7]
  let generator : List Reg := [.stateLo, .stateHi, .incLo, .incHi, .pos0, .pos1, .pos2, .pos3]
  let record : List Reg := [.srecStateLo, .srecStateHi, .srecIncLo, .srecIncHi]
  let constants : List Reg := [.mulLo, .mulHi, .dxsmMul, .jumpLo, .jumpHi, .mulInvLo, .mulInvHi]
  control ++ ops ++ results ++ generator ++ record ++ constants

/-- The register at an offset; every offset not in R36's table is unmapped. -/
def regAt (off : Nat) : Option Reg := allRegs.find? fun r => r.offset == off

/-- WINDOW_SIZE (R50). -/
def windowSize : Nat := 4096

/-- The window offset of a platform address: the window lies at BASE_ADDR (R50, log 6); an address outside it is not this
block's. -/
def windowOffset (addr : Nat) : Option Nat :=
  if Config.baseAddr ≤ addr ∧ addr < Config.baseAddr + windowSize then some (addr - Config.baseAddr) else none

/-- ID (R22): "PCG64DX", version 1. -/
def idValue : Word := 0x5043473634445801

/-- The value a read of a register returns (R53 and the rows of R36); reserved bits read 0. -/
def State.readReg (s : State) : Reg → Word
  | .id => idValue
  | .status => s.statusWord
  | .cmd => s.cmd
  | .op i => s.op.get i
  | .res i => s.res.get i
  | .stateLo => lo64 s.gen.state
  | .stateHi => hi64 s.gen.state
  | .incLo => lo64 s.gen.inc
  | .incHi => hi64 s.gen.inc
  | .pos0 => s.gen.pos.extractLsb' 0 64
  | .pos1 => s.gen.pos.extractLsb' 64 64
  | .pos2 => s.gen.pos.extractLsb' 128 64
  | .pos3 => s.gen.pos.extractLsb' 192 64
  | .srecStateLo => lo64 s.gen.srecState
  | .srecStateHi => hi64 s.gen.srecState
  | .srecIncLo => lo64 s.gen.srecInc
  | .srecIncHi => hi64 s.gen.srecInc
  | .mulLo => lo64 lcgMul
  | .mulHi => hi64 lcgMul
  | .dxsmMul => Machine.dxsmMul
  | .jumpLo => lo64 s.jump
  | .jumpHi => hi64 s.jump
  | .mulInvLo => lo64 lcgMulInv
  | .mulInvHi => hi64 lcgMulInv

/-- A register the host may write with an effect: CMD, OPi and STATUS bit 8; every other one is read-only (R42). -/
def Reg.readOnly : Reg → Bool
  | .status => false
  | .cmd => false
  | .op _ => false
  | _ => true

end Sys2Proof.Machine
end

