-- ==== Sys2Proof/Machine/Ops.lean ====
section
/-! DEFINITION. The named operations on the state: how a command completes, succeeds, fails or stays pending (45_control.md R211
to R213), what a host access does (20_memory.md R51 to R57), and hardware reset (70_reset_and_hazards.md R250). The block takes
no traps (60_exceptions.md R224): its one shared way to report an exceptional outcome is `State.fail`, and there is no return
from it (R225). -/

namespace Sys2Proof.Machine

/-- Success (R212): the generator and result registers take the command's values, ECODE <- 0, BUSY <- 0. -/
def State.succeed (s : State) (g : Gen) (r : Bank) : State :=
  { s with gen := g, res := r, ecode := .ok, busy := false, waited := 0 }

/-- Failure (R213): ECODE <- code, BUSY <- 0, and nothing else is written. -/
def State.fail (s : State) (code : ECode) : State :=
  { s with ecode := code, busy := false, waited := 0 }

/-- The completion step does not exist at this turn (R202, R226): BUSY stays 1 and no register changes; the model counts the
turn (log 13). -/
def State.stillPending (s : State) : State := { s with waited := s.waited + 1 }

/-- Commit of a command that ran on scratch copies (R17, R212, R213). -/
def State.commit (s : State) : Except ECode (Gen × Bank) → State
  | .ok (g, r) => s.succeed g r
  | .error code => s.fail code

/-- The check `if G.seeded == 0: raise Error(E_UNSEEDED)` before the rest of a command (R25, R221). -/
def State.ifSeeded (s : State) (rest : Except ECode (Gen × Bank)) : Except ECode (Gen × Bank) :=
  if s.gen.seeded then rest else .error .unseeded

/-- The entropy source has been consulted (R165): its next answer is a fresh free draw (log 11). -/
def State.consultEntropy (s : State) : State :=
  { s with entropy := Config.entropyAnswer s.entropyUses, entropyUses := s.entropyUses + 1 }

/-- An accepted write to CMD (R211): CMD <- w, BUSY <- 1. -/
def State.issue (s : State) (w : Word) : State := { s with cmd := w, busy := true, waited := 0 }

/-- A write to CMD or OPi dropped because BUSY = 1 sets OVR (R215). -/
def State.dropWrite (s : State) : State := { s with ovr := true }

/-- `MemWrite` at a mapped offset (R53, R57): CMD issues or is dropped, OPi stores or is dropped, STATUS bit 8 clears OVR whether
or not BUSY is 1, and a read-only register ignores the write (R42). -/
def State.writeReg (s : State) (v : Word) : Reg → State
  | .cmd => if s.busy then s.dropWrite else s.issue v
  | .op i => if s.busy then s.dropWrite else { s with op := s.op.set i v }
  | .status => if clearsOvr v then { s with ovr := false } else s
  | _ => s

/-- Which register an access reaches, or why the bus refuses it (R51, R52); the order of the checks only names the fault
(log 4). -/
def checkAccess (off size : Nat) : Except Fault Reg :=
  if size ≠ 8 then .error (.accessSize size)
  else if off % 8 ≠ 0 then .error (.misaligned off)
  else
    match regAt off with
    | some r => .ok r
    | none => .error (.unmapped off)

/-- `MemRead(off, size)`: the whole register, no side effect (R53); a refused access is a fault of the host's step (R51). -/
def State.hostRead (s : State) (off size : Nat) : Host.Outcome State Fault Refusal :=
  match checkAccess off size with
  | .ok r => .next { s with reply := .data (s.readReg r) }
  | .error f => .fault f

/-- `MemWrite(off, size, v)` (R53); a dropped or ignored write is still accepted by the bus (R42, R223). -/
def State.hostWrite (s : State) (off size : Nat) (v : Word) : Host.Outcome State Fault Refusal :=
  match checkAccess off size with
  | .ok r => .next { s.writeReg v r with reply := .accepted }
  | .error f => .fault f

/-- Hardware reset (R250): every register to its value of R41 and a pending command abandoned. The parameters and the events
still to come are not registers and stay; the entropy source's pending answer is ignored (log 22). -/
def State.hardwareReset (s : State) : State :=
  { State.reset with
    ent := s.ent
    jump := s.jump
    schedule := s.schedule
    entropy := Config.entropyAnswer s.entropyUses
    entropyUses := s.entropyUses + 1 }

end Sys2Proof.Machine
end

