-- ==== Sys2Proof/Machine/Control.lean ====
section
/-! DEFINITION. The meaning of NOP (45_control.md). The block has no other control command (10_state.md R21). -/

namespace Sys2Proof.Machine

/-- NOP (R210): succeeds and writes only ECODE = 0. -/
def execNop (s : State) : Host.Outcome State Fault Refusal :=
  .next (s.commit (.ok (s.gen, s.res)))

end Sys2Proof.Machine
end

