-- ==== Sys2Proof/Machine/Affine.lean ====
section
/-! DEFINITION. Affine transforms modulo 2^128 (40_arith.md section 4). They are internal to one engine step and are no state
(10_state.md R20, R38). -/

namespace Sys2Proof.Machine

/-- An affine transform (R107): `x -> m*x + c (mod 2^128)`. -/
structure Affine where
  /-- The multiplier. -/
  m : U128
  /-- The offset. -/
  c : U128
deriving DecidableEq, Repr

/-- `Apply(T, x)` (R107). -/
def Affine.app (t : Affine) (x : U128) : U128 := t.m * x + t.c

/-- `Identity = (1, 0)` (R107). -/
def Affine.identity : Affine := ⟨1, 0⟩

/-- `Base(inc) = (MUL, inc)`: one forward LCG step (R107). -/
def Affine.base (inc : U128) : Affine := ⟨lcgMul, inc⟩

/-- `InvBase(inc)` (R110): one backward LCG step. -/
def Affine.invBase (inc : U128) : Affine := ⟨lcgMulInv, -(lcgMulInv * inc)⟩

/-- `Compose(T2, T1)` (R108): T1 first, then T2. -/
def Affine.compose (t2 t1 : Affine) : Affine := ⟨t2.m * t1.m, t2.m * t1.c + t2.c⟩

/-- The loop of R109, one round per bit of the exponent; `rounds` bounds the number of bits. -/
def affPowLoop : (rounds : Nat) → (acc cur : Affine) → (n : Nat) → Affine
  | 0, acc, _, _ => acc
  | rounds + 1, acc, cur, n =>
    if n = 0 then acc
    else
      affPowLoop rounds (if n % 2 = 1 then Affine.compose acc cur else acc) (Affine.compose cur cur) (n / 2)

/-- `AffPow(T, n)` for a natural n of any size (R109): floor(log2 n) + 1 rounds for n > 0. -/
def Affine.pow (t : Affine) (n : Nat) : Affine := affPowLoop (n.log2 + 1) Affine.identity t n

end Sys2Proof.Machine
end

