-- ==== Sys2Proof/Machine/Generator.lean ====
section
/-! DEFINITION. The generator functions of 40_arith.md sections 5 and 6, on records of the generator registers. The only error any
of them raises is E_POS_RANGE. -/

namespace Sys2Proof.Machine

/-- `PosAdd(p, d)` (R111). -/
def posAdd (p : U256) (d : Int) : Except ECode U256 :=
  let r := p.toInt + d
  if r < -2 ^ 255 ∨ r > 2 ^ 255 - 1 then .error .posRange else .ok (BitVec.ofInt 256 r)

/-- `RawDraw(g)` (R112): the output is that of the state before the step. -/
def rawDraw (g : Gen) : Except ECode (Word × Gen) :=
  match posAdd g.pos 1 with
  | .error code => .error code
  | .ok pos => .ok (dxsmPermute g.state, { g with state := lcgStep g.state g.inc, pos := pos })

/-- The base step of `AdvanceFn` (R113): forward for d > 0, backward for d < 0. -/
def advanceBase (inc : U128) (d : Int) : Affine :=
  if d > 0 then Affine.base inc else Affine.invBase inc

/-- The state `d` raw steps away from `st`: `Apply(AffPow(base, |d|), st)` (R113, R172). -/
def moveState (inc : U128) (d : Int) (st : U128) : U128 :=
  ((advanceBase inc d).pow d.natAbs).app st

/-- `AdvanceFn(g, d)` (R113). -/
def advanceFn (g : Gen) (d : Int) : Except ECode Gen :=
  if d = 0 then .ok g
  else
    match posAdd g.pos d with
    | .error code => .error code
    | .ok pos => .ok { g with state := moveState g.inc d g.state, pos := pos }

/-- `SeedInit(ss, si)` (R114): the increment forced odd, the canonical seeding step, one discarded draw that does not count
(90_conflicts.md C5). -/
def seedInit (ss si : U128) : Gen :=
  let inc := si ||| 1
  { state := lcgStep (ss + inc) inc, inc := inc, pos := 0, srecState := ss, srecInc := inc, seeded := true }

/-- The record IMPORT loads (R172): the seed record is the one whose seeding and `p` draws reach `st`. -/
def importGen (st increment : U128) (p : U256) : Gen :=
  let inc := increment ||| 1
  let s0 := if p.toInt = 0 then st else moveState inc (-p.toInt) st
  let ss := (Affine.invBase inc).app s0 - inc
  { state := st, inc := inc, pos := p, srecState := ss, srecInc := inc, seeded := true }

/-- The exact product `m = x * Bd` of R115. -/
def lemireProduct (bd : Nat) (x : Word) : Nat := x.toNat * bd

/-- `low = m mod 2^64` (R115). -/
def lemireLow (bd : Nat) (x : Word) : Nat := lemireProduct bd x % 2 ^ 64

/-- The rejection threshold `t = (2^64 - Bd) mod Bd` (R115). -/
def lemireThreshold (bd : Nat) : Nat := (2 ^ 64 - bd) % bd

/-- "the high 64 bits of the retained product" (R115). -/
def lemireResult (bd : Nat) (x : Word) : Word := BitVec.ofNat 64 (lemireProduct bd x / 2 ^ 64)

/-- How one engine turn of the Lemire loop ends. -/
inductive LemireOutcome where
  /-- A draw was accepted: the result and the generator after it. -/
  | done (r : Word) (g : Gen)
  /-- A draw raised an error. -/
  | failed (code : ECode)
  /-- "not completed" (R202): the fuel ran out. -/
  | unfinished
deriving DecidableEq, Repr

/-- `while low < t` of R115, under fuel (R202): `x` is the draw just taken and `g` the generator after it. -/
def lemireRedraw (bd t : Nat) : (fuel : Nat) → (x : Word) → (g : Gen) → LemireOutcome
  | 0, x, g => if lemireLow bd x < t then .unfinished else .done (lemireResult bd x) g
  | fuel + 1, x, g =>
    if lemireLow bd x < t then
      match rawDraw g with
      | .error code => .failed code
      | .ok (x', g') => lemireRedraw bd t fuel x' g'
    else .done (lemireResult bd x) g

/-- `Lemire(g, Bd)` (R115), with at most `fuel` draws after the first. -/
def lemire (fuel : Nat) (g : Gen) (bd : Nat) : LemireOutcome :=
  match rawDraw g with
  | .error code => .failed code
  | .ok (x, g') =>
    if lemireLow bd x < bd then lemireRedraw bd (lemireThreshold bd) fuel x g'
    else .done (lemireResult bd x) g'

end Sys2Proof.Machine
end

