-- ==== Sys2Proof/Machine/Draws.lean ====
section
/-! DEFINITION. The drawing commands: NEXT64, NEXTF64 and DXSM (43_generator.md section 2) and BOUNDED (44_bounded.md). -/

namespace Sys2Proof.Machine

/-- One raw draw whose output goes to RES0 through `f` (R166, R167). -/
def drawInto (s : State) (f : Word → Word) : Except ECode (Gen × Bank) :=
  (rawDraw s.gen).map fun xg => (xg.2, s.res.set 0 (f xg.1))

/-- NEXT64 (R166). -/
def execNext64 (s : State) : Host.Outcome State Fault Refusal :=
  .next (s.commit (s.ifSeeded (drawInto s id)))

/-- NEXTF64 (R167). -/
def execNextF64 (s : State) : Host.Outcome State Fault Refusal :=
  .next (s.commit (s.ifSeeded (drawInto s f64)))

/-- DXSM (R168): RES0 <- DXSM(A); the generator is not touched. -/
def execDxsm (s : State) : Host.Outcome State Fault Refusal :=
  .next (s.commit (.ok (s.gen, s.res.set 0 (dxsmPermute s.opA))))

/-- BOUNDED (R200, R202): E_UNSEEDED, then E_BOUND, then the Lemire loop; out of fuel, the command is not yet completed
(log 13). -/
def execBounded (s : State) : Host.Outcome State Fault Refusal :=
  .next
    (if s.gen.seeded then
      if s.opA.toNat = 0 ∨ s.opA.toNat > 2 ^ 64 then s.commit (.error .bound)
      else
        match lemire (Config.lemireFuel + s.waited) s.gen s.opA.toNat with
        | .done r g => s.commit (.ok (g, s.res.set 0 r))
        | .failed code => s.commit (.error code)
        | .unfinished => s.stillPending
    else s.commit (.error .unseeded))

end Sys2Proof.Machine
end

