-- ==== Sys2Proof/Machine/Positioning.lean ====
section
/-! DEFINITION. The positioning commands: ADVANCE (42_affine.md R142), SEEK, RESET and JUMPED (43_generator.md section 3). -/

namespace Sys2Proof.Machine

/-- ADVANCE (R142): `G <- AdvanceFn(G, s256val(P))`. -/
def execAdvance (s : State) : Host.Outcome State Fault Refusal :=
  .next (s.commit (s.ifSeeded ((advanceFn s.gen s.opPSigned).map fun g => (g, s.res))))

/-- SEEK (R169): from the seed record, never from the current state. -/
def execSeek (s : State) : Host.Outcome State Fault Refusal :=
  .next (s.commit (s.ifSeeded
    ((advanceFn (seedInit s.gen.srecState s.gen.srecInc) s.opPSigned).map fun g => (g, s.res))))

/-- RESET (R170): `G <- SeedInit(G.srec_state, G.srec_inc)`. It is not hardware reset. -/
def execReset (s : State) : Host.Outcome State Fault Refusal :=
  .next (s.commit (s.ifSeeded (.ok (seedInit s.gen.srecState s.gen.srecInc, s.res))))

/-- The result bank JUMPED leaves (R171): the clone's state, increment and position in R, S and Q. -/
def Bank.setClone (b : Bank) (c : Gen) : Bank := ((b.setR c.state).setS c.inc).setQ c.pos

/-- JUMPED (R171): a copy advanced by the exact product `s256val(P) * JUMP_DISTANCE`; the generator is unmodified. -/
def execJumped (s : State) : Host.Outcome State Fault Refusal :=
  .next (s.commit (s.ifSeeded
    ((advanceFn s.gen (s.opPSigned * s.jump.toNat)).map fun c => (s.gen, s.res.setClone c))))

end Sys2Proof.Machine
end

