-- ==== Sys2Proof/Machine/Seeding.lean ====
section
/-! DEFINITION. The seeding commands and IMPORT (43_generator.md sections 1 and 4). -/

namespace Sys2Proof.Machine

/-- SEED.PAIR (R161): `G <- SeedInit(A, B)`. -/
def execSeedPair (s : State) : Host.Outcome State Fault Refusal :=
  .next (s.commit (.ok (seedInit s.opA s.opB, s.res)))

/-- SEED.STATE (R162): `G <- SeedInit(A, 1)`; B is not read. -/
def execSeedState (s : State) : Host.Outcome State Fault Refusal :=
  .next (s.commit (.ok (seedInit s.opA 1, s.res)))

/-- The seed state in an entropy answer (R163): bytes 0 to 15. -/
def entropyState (e : Vector Byte 32) : U128 := BitVec.ofNat 128 (bigEndian (e.toList.take 16))

/-- The seed increment in an entropy answer (R163): bytes 16 to 31. -/
def entropyInc (e : Vector Byte 32) : U128 := BitVec.ofNat 128 (bigEndian (e.toList.drop 16))

/-- SEED.ENTROPY (R163, R165): absence is E_NO_ENTROPY without a consultation; otherwise one consultation, whose answer may be
bytes, `Unavailable` (E_NO_ENTROPY), or none for ever (the command stays pending). -/
def execSeedEntropy (s : State) : Host.Outcome State Fault Refusal :=
  .next
    (if s.ent then
      match s.entropy with
      | .bytes e => s.consultEntropy.commit (.ok (seedInit (entropyState e) (entropyInc e), s.res))
      | .unavailable => s.consultEntropy.commit (.error .noEntropy)
      | .silent => s.stillPending
    else s.commit (.error .noEntropy))

/-- IMPORT (R172). -/
def execImport (s : State) : Host.Outcome State Fault Refusal :=
  .next (s.commit (.ok (importGen s.opA s.opB s.opP, s.res)))

end Sys2Proof.Machine
end

