-- ==== Sys2Proof/Machine/Units.lean ====
section
/-! DEFINITION. The arithmetic units as commands: INV (41_modinv.md R132), AFFCOMP and AFFPOW (42_affine.md R140, R141). None needs
a seeded generator. -/

namespace Sys2Proof.Machine

/-- INV (R132): E_EVEN on an even operand, else R <- ModInv(A). -/
def execInv (s : State) : Host.Outcome State Fault Refusal :=
  .next (s.commit
    (if s.opA.getLsbD 0 then .ok (s.gen, s.res.setR (modInv s.opA)) else .error .even))

/-- The result bank of a transform (R140, R141): multiplier in R, offset in S. -/
def Bank.setAffine (b : Bank) (t : Affine) : Bank := (b.setR t.m).setS t.c

/-- AFFCOMP (R140): `Compose((C, D), (A, B))`. -/
def execAffComp (s : State) : Host.Outcome State Fault Refusal :=
  .next (s.commit (.ok (s.gen, s.res.setAffine (Affine.compose ⟨s.opC, s.opD⟩ ⟨s.opA, s.opB⟩))))

/-- AFFPOW (R141): `AffPow((A, B), P)`, P unsigned. -/
def execAffPow (s : State) : Host.Outcome State Fault Refusal :=
  .next (s.commit (.ok (s.gen, s.res.setAffine (Affine.pow ⟨s.opA, s.opB⟩ s.opP.toNat))))

end Sys2Proof.Machine
end

