-- ==== Sys2Proof/Machine/Dispatch.lean ====
section
/-! DEFINITION. Dispatch (45_control.md R216): the command rule each decoded command selects. -/

namespace Sys2Proof.Machine

def exec (i : Instr) (s : State) : Host.Outcome State Fault Refusal :=
  match i with
  | .nop => Sys2Proof.Machine.execNop s
  | .seedPair => Sys2Proof.Machine.execSeedPair s
  | .seedState => Sys2Proof.Machine.execSeedState s
  | .seedEntropy => Sys2Proof.Machine.execSeedEntropy s
  | .next64 => Sys2Proof.Machine.execNext64 s
  | .nextF64 => Sys2Proof.Machine.execNextF64 s
  | .bounded => Sys2Proof.Machine.execBounded s
  | .advance => Sys2Proof.Machine.execAdvance s
  | .seek => Sys2Proof.Machine.execSeek s
  | .reset => Sys2Proof.Machine.execReset s
  | .jumped => Sys2Proof.Machine.execJumped s
  | .importRecord => Sys2Proof.Machine.execImport s
  | .inv => Sys2Proof.Machine.execInv s
  | .affPow => Sys2Proof.Machine.execAffPow s
  | .affComp => Sys2Proof.Machine.execAffComp s
  | .dxsm => Sys2Proof.Machine.execDxsm s

end Sys2Proof.Machine
end

