-- ==== Sys2Proof/Machine/Engine.lean ====
section
/-! DEFINITION. The engine's turn (45_control.md R212) and what each event does (60_exceptions.md R228). -/

namespace Sys2Proof.Machine

/-- The engine's turn: with BUSY = 1 the pending command completes, an illegal word with E_ILLEGAL (R74, R216); an idle block does
nothing (R234, logs 2 and 23). -/
def State.engineTurn (s : State) : Host.Outcome State Fault Refusal :=
  if s.busy then
    match decode s.cmd with
    | .ok i => exec i s
    | .error _ => .next (s.commit (.error .illegal))
  else .next s

/-- WAIT at the head of the schedule (R81): a poll that reads BUSY = 1 changes nothing and the engine takes its turn before the
next poll (R262); the first read of STATUS with BUSY = 0 ends it (log 16). -/
def State.hostPoll (s : State) (rest : List Event) : Host.Outcome State Fault Refusal :=
  if s.busy then s.engineTurn else State.hostRead { s with schedule := rest } Reg.status.offset 8

/-- What the next event does; with none scheduled the engine takes its turn (R262, log 1). -/
def State.nextEvent (s : State) : Host.Outcome State Fault Refusal :=
  match s.schedule with
  | [] => s.engineTurn
  | .hostRead off size :: rest => State.hostRead { s with schedule := rest } off size
  | .hostWrite off size v :: rest => State.hostWrite { s with schedule := rest } off size v
  | .hostWait :: rest => s.hostPoll rest
  | .hardwareReset :: rest => .next (State.hardwareReset { s with schedule := rest })
  | .engine :: rest => State.engineTurn { s with schedule := rest }

/-- `s` with the command word `w` latched and pending, and nothing scheduled before the engine's turn: an accepted CMD write
(R211, log 3). -/
def State.withCommand (s : State) (w : Word) : State := { s.issue w with schedule := [] }

end Sys2Proof.Machine
end

