-- ==== Sys2Proof/Machine/HostNotation.lean ====
section
/-! DEFINITION. The host notation of 30_encoding.md R77 to R81 and the host-side conversions of 43_generator.md R173 to R176, as
lists of events. It is a notation for sequences of bus accesses, not an instruction set of the block. Labels and `bnz` are the
host's own control flow (R77) and are not part of the block (log 17); WAIT is the event `hostWait`. -/

namespace Sys2Proof.Machine

/-- `wr <REG>, <imm64>` (R77). -/
def wr (r : Reg) (v : Word) : List Event := [.hostWrite r.offset 8 v]
/-- `rd <REG>` (R77). -/
def rd (r : Reg) : List Event := [.hostRead r.offset 8]
/-- `cmd <MNEMONIC>` (R77). -/
def cmd (i : Instr) : List Event := wr .cmd (encode i)
/-- `cmd .word <imm64>` (R77). -/
def cmdWord (w : Word) : List Event := wr .cmd w

/-- The 128-bit operand views `li128` writes (R79). -/
inductive View where
  | a
  | b
  | c
  | d
deriving DecidableEq, Repr

/-- The first operand register of a view (R14, R79). -/
def View.firstOp : View → Fin 8
  | .a => 0
  | .b => 2
  | .c => 4
  | .d => 6

/-- `li128 <V>, <imm128>` (R79): two writes, low word first. -/
def li128 (v : View) (imm : U128) : List Event :=
  wr (.op v.firstOp) (lo64 imm) ++ wr (.op (v.firstOp + 1)) (hi64 imm)

/-- `li256 P, <imm>` (R79), with `v = trunc_256(imm)`. -/
def li256 (imm : Int) : List Event :=
  let v := BitVec.ofInt 256 imm
  wr (.op 4) (v.extractLsb' 0 64) ++ wr (.op 5) (v.extractLsb' 64 64) ++ wr (.op 6) (v.extractLsb' 128 64)
    ++ wr (.op 7) (v.extractLsb' 192 64)

/-- The 128-bit values `rd128` reads (R80). -/
inductive Wide where
  | r
  | s
  | state
  | inc
  | srecState
  | srecInc
deriving DecidableEq, Repr

/-- `rd128 <X>` (R80): low word first. -/
def rd128 : Wide → List Event
  | .r => rd (.res 0) ++ rd (.res 1)
  | .s => rd (.res 2) ++ rd (.res 3)
  | .state => rd .stateLo ++ rd .stateHi
  | .inc => rd .incLo ++ rd .incHi
  | .srecState => rd .srecStateLo ++ rd .srecStateHi
  | .srecInc => rd .srecIncLo ++ rd .srecIncHi

/-- `rd256 Q` (R80). -/
def rd256Q : List Event := rd (.res 4) ++ rd (.res 5) ++ rd (.res 6) ++ rd (.res 7)
/-- `rd256 POS` (R80). -/
def rd256Pos : List Event := rd .pos0 ++ rd .pos1 ++ rd .pos2 ++ rd .pos3

/-- `do <MNEMONIC>` (R81): `cmd` then WAIT. -/
def doCmd (i : Instr) : List Event := cmd i ++ [.hostWait]

/-- `seed(s, i)` (R81). -/
def hostSeed (s i : U128) : List Event := li128 .a s ++ li128 .b i ++ doCmd .seedPair
/-- `seed16(s)` (R81). -/
def hostSeed16 (s : U128) : List Event := li128 .a s ++ doCmd .seedState
/-- `seed()` (R81). -/
def hostSeedEntropy : List Event := doCmd .seedEntropy
/-- `nextUint64()` (R81). -/
def hostNextUint64 : List Event := doCmd .next64 ++ rd (.res 0)
/-- `nextFloat64()` (R81). -/
def hostNextFloat64 : List Event := doCmd .nextF64 ++ rd (.res 0)
/-- `intBelow(b)` (R81). -/
def hostIntBelow (b : U128) : List Event := li128 .a b ++ doCmd .bounded ++ rd (.res 0)
/-- `advance(d)` (R81). -/
def hostAdvance (d : Int) : List Event := li256 d ++ doCmd .advance
/-- `seek(p)` (R81). -/
def hostSeek (p : Int) : List Event := li256 p ++ doCmd .seek
/-- `reset()` (R81). -/
def hostResetCommand : List Event := doCmd .reset
/-- `jumped(j)` (R81). -/
def hostJumped (j : Int) : List Event := li256 j ++ doCmd .jumped ++ rd128 .r ++ rd128 .s ++ rd256Q
/-- `import(s, i, p)` (R81). -/
def hostImport (s i : U128) (p : Int) : List Event := li128 .a s ++ li128 .b i ++ li256 p ++ doCmd .importRecord
/-- `export()` (R81, R173). -/
def hostExport : List Event := rd128 .state ++ rd128 .inc ++ rd256Pos
/-- `pos()` (R81, R176). -/
def hostPos : List Event := rd256Pos
/-- `inv(a)` (R81). -/
def hostInv (a : U128) : List Event := li128 .a a ++ doCmd .inv ++ rd128 .r

/-- The host's conversion of a raw seed byte string (R175): 16 bytes seed by SEED.STATE and 32 by SEED.PAIR; any other length is
an error the host detects and the block never sees. -/
def hostSeedBytes (b : List Byte) : Option (List Event) :=
  if b.length = 16 then some (hostSeed16 (BitVec.ofNat 128 (bigEndian b)))
  else if b.length = 32 then
    some (hostSeed (BitVec.ofNat 128 (bigEndian (b.take 16))) (BitVec.ofNat 128 (bigEndian (b.drop 16))))
  else none

end Sys2Proof.Machine
end

