-- ==== Sys2Proof/Safety.lean ====
section
/-! DEFINITION. The terms the claims are stated in: raw steps counted one by one, the invariants of 10_state.md R39 and R40, what
each command may write and report, the accepted draws of a bound, the value of a binary64 pattern, and what a run that never
stops is. None of it is used by the machine. -/

namespace Sys2Proof.Machine

/-! ### Raw steps -/

/-- `n` forward LCG steps, one at a time (R105). -/
def forward (inc : U128) (n : Nat) (x : U128) : U128 := (fun y => lcgStep y inc)^[n] x

/-- `b` is the state `p` raw steps after `a`; for a negative `p`, `a` is the state `-p` steps after `b` (R40: "a negative count
meaning backward steps"). -/
def Reaches (inc a : U128) (p : Int) (b : U128) : Prop := forward inc p.toNat a = forward inc (-p).toNat b

/-- The `k`-th raw draw from a generator, counting from 0, whatever the position (R112). -/
def nthDraw (g : Gen) (k : Nat) : Word := dxsmPermute (forward g.inc k g.state)

/-- The largest position, 2^255 - 1 (R31). -/
def posMax : Int := 2 ^ 255 - 1
/-- The smallest position, -2^255 (R31). -/
def posMin : Int := -2 ^ 255

/-! ### Invariants -/

/-- The seed point of the seed record (R160, R18). -/
def Gen.seedPoint (g : Gen) : U128 := (seedInit g.srecState g.srecInc).state

/-- The invariants of the generator registers: R39, R40, and R252's ground that an unseeded generator holds its reset values. -/
structure Gen.Inv (g : Gen) : Prop where
  /-- R39: the increment is odd while seeded. -/
  incOdd : g.seeded = true → g.inc.getLsbD 0 = true
  /-- R39: the record's increment is the increment while seeded. -/
  recordInc : g.seeded = true → g.srecInc = g.inc
  /-- R40: the seek invariant. -/
  seek : g.seeded = true → Reaches g.inc g.seedPoint g.pos.toInt g.state
  /-- R41, R252: an unseeded generator is the reset one. -/
  unseeded : g.seeded = false → g = Gen.reset

/-- The invariant every step keeps. -/
structure State.Inv (s : State) : Prop where
  /-- The generator's invariants. -/
  gen : s.gen.Inv
  /-- The model's turn counter counts only for a pending command (log 13). -/
  idle : s.busy = false → s.waited = 0

/-! ### Draws under a bound -/

/-- A draw `x` is accepted under the bound `bd`: `low >= t` (R201: "until low ≥ t"). -/
abbrev Accepts (bd : Nat) (x : Word) : Prop := (2 ^ 64 - bd) % bd ≤ x.toNat * bd % 2 ^ 64

/-- The `k`-th draw is the first accepted one. -/
abbrev FirstAccepted (g : Gen) (bd k : Nat) : Prop := Accepts bd (nthDraw g k) ∧ ∀ j < k, ¬ Accepts bd (nthDraw g j)

/-- No draw before the `k`-th is accepted. -/
abbrev NoneAcceptedBefore (g : Gen) (bd k : Nat) : Prop := ∀ j < k, ¬ Accepts bd (nthDraw g j)

/-! ### Binary64 -/

/-- The rational number a binary64 pattern denotes (93_implementation_defined.md G1: sign bit 63, exponent [62:52] with bias 1023,
fraction [51:0]); infinities and NaNs, which NEXTF64 never returns, are given as normal numbers (log 25). -/
def binary64Value (w : Word) : ℚ :=
  let sign : ℚ := if w.toNat / 2 ^ 63 = 1 then -1 else 1
  let e : Nat := w.toNat / 2 ^ 52 % 2 ^ 11
  let f : ℚ := ((w.toNat % 2 ^ 52 : Nat) : ℚ) / 2 ^ 52
  if e = 0 then sign * f * 2 ^ (-1022 : ℤ) else sign * (1 + f) * 2 ^ ((e : ℤ) - 1023)

/-! ### Runs -/

/-- The bus accepts the event's access (20_memory.md R51, R52); an event that is no access is always accepted. -/
def Event.accepted : Event → Bool
  | .hostRead off size => (checkAccess off size).toBool
  | .hostWrite off size _ => (checkAccess off size).toBool
  | .hostWait => true
  | .hardwareReset => true
  | .engine => true

/-- A safe run: `n` steps from `s` never stop. -/
def RunsSafely (n : Nat) (s : State) : Prop := ∃ t, Sys2Proof.core.run n s = .next t

/-- The same command completed `n` times in a row. -/
def execTimes (i : Instr) : Nat → State → Host.Outcome State Fault Refusal
  | 0, s => .next s
  | n + 1, s =>
    match exec i s with
    | .next t => execTimes i n t
    | .fault f => .fault f
    | .refused r => .refused r

end Sys2Proof.Machine

/-! ### What each command may write and report -/

namespace Sys2Proof

open Machine

/-- The registers of G.state and G.pos in the window. -/
def stateAndPosRegs : List Reg := [.stateLo, .stateHi, .pos0, .pos1, .pos2, .pos3]

/-- Every generator register in the window. -/
def generatorRegs : List Reg :=
  stateAndPosRegs ++ [.incLo, .incHi, .srecStateLo, .srecStateHi, .srecIncLo, .srecIncHi]

/-- The window registers, STATUS apart, that a command's rule names as written on success. SEEK and RESET also rewrite G.inc and
the record "with their own values" (R169). -/
def Instr.written : Instr → List Reg
  | .nop => []
  | .seedPair => generatorRegs
  | .seedState => generatorRegs
  | .seedEntropy => generatorRegs
  | .next64 => .res 0 :: stateAndPosRegs
  | .nextF64 => .res 0 :: stateAndPosRegs
  | .bounded => .res 0 :: stateAndPosRegs
  | .advance => stateAndPosRegs
  | .seek => stateAndPosRegs
  | .reset => stateAndPosRegs
  | .jumped => [.res 0, .res 1, .res 2, .res 3, .res 4, .res 5, .res 6, .res 7]
  | .importRecord => generatorRegs
  | .inv => [.res 0, .res 1]
  | .affPow => [.res 0, .res 1, .res 2, .res 3]
  | .affComp => [.res 0, .res 1, .res 2, .res 3]
  | .dxsm => [.res 0]

/-- The "needs seeded" column of R72. -/
def Instr.needsSeeded : Instr → Bool
  | .nop => false
  | .seedPair => false
  | .seedState => false
  | .seedEntropy => false
  | .next64 => true
  | .nextF64 => true
  | .bounded => true
  | .advance => true
  | .seek => true
  | .reset => true
  | .jumped => true
  | .importRecord => false
  | .inv => false
  | .affPow => false
  | .affComp => false
  | .dxsm => false

/-- The commands that create a generator: SEED.* and IMPORT (R25, R30). -/
def Instr.seeds : Instr → Bool
  | .nop => false
  | .seedPair => true
  | .seedState => true
  | .seedEntropy => true
  | .next64 => false
  | .nextF64 => false
  | .bounded => false
  | .advance => false
  | .seek => false
  | .reset => false
  | .jumped => false
  | .importRecord => true
  | .inv => false
  | .affPow => false
  | .affComp => false
  | .dxsm => false

/-- The "raised by" column of 60_exceptions.md R220, read by command; E_ILLEGAL is raised by words, not by commands. -/
def Instr.mayReport : Instr → List ECode
  | .nop => []
  | .seedPair => []
  | .seedState => []
  | .seedEntropy => [.noEntropy]
  | .next64 => [.unseeded, .posRange]
  | .nextF64 => [.unseeded, .posRange]
  | .bounded => [.unseeded, .bound, .posRange]
  | .advance => [.unseeded, .posRange]
  | .seek => [.unseeded]
  | .reset => [.unseeded]
  | .jumped => [.unseeded, .posRange]
  | .importRecord => []
  | .inv => [.even]
  | .affPow => []
  | .affComp => []
  | .dxsm => []

end Sys2Proof
end

