-- ==== Sys2Proof/Certificates/Slice0/Obligations.lean ====
section
/-! DEFINITION. The statements for the provers. A completion is written as the whole next state, so that every field not named in
it is stated to be unchanged; the block has no memory besides its registers (00_scope.md R15), so that is the whole frame. -/

open Sys2Proof Sys2Proof.Machine

/-! ### Reset -/

/-- R41: the value of every register after reset. ENTROPY_PRESENT and JUMP_DISTANCE stand for whatever value the parameters
have. -/
def Obligations.ResetLeavesTheTableOfR41 : Prop :=
  State.reset.readReg .id = 0x5043473634445801 ∧
  State.reset.busy = false ∧ State.reset.seeded = false ∧ State.reset.err = false ∧ State.reset.ecode.code = 0 ∧
  State.reset.ovr = false ∧ State.reset.ent = Config.entropyPresent ∧
  State.reset.readReg .cmd = 0 ∧
  (∀ i, State.reset.readReg (.op i) = 0) ∧ (∀ i, State.reset.readReg (.res i) = 0) ∧
  State.reset.gen.state = 0 ∧ State.reset.gen.inc = 0 ∧ State.reset.gen.pos = 0 ∧
  State.reset.gen.srecState = 0 ∧ State.reset.gen.srecInc = 0 ∧ State.reset.gen.seeded = false ∧
  (State.reset.readReg .mulHi ++ State.reset.readReg .mulLo : U128) = 0xDA942042E4DD58B5 ∧
  State.reset.readReg .dxsmMul = 0xDA942042E4DD58B5 ∧
  (State.reset.readReg .mulInvHi ++ State.reset.readReg .mulInvLo : U128) = 0x0CD365D2CB1A6A6C8B838D0354EAD59D ∧
  (State.reset.readReg .jumpHi ++ State.reset.readReg .jumpLo : U128) = Config.jumpDistance

/-- R250: hardware reset sets every register to its value of R41, abandons a pending command and leaves the block idle. Every
register of the window but STATUS and the two halves of JUMP_DISTANCE reads as in `State.reset`; the parameters stay. -/
def Obligations.HardwareResetSetsEveryRegister : Prop :=
  ∀ (s : State) (rest : List Event), s.schedule = .hardwareReset :: rest →
    ∃ t, step s = .next t ∧
      (∀ r, r ≠ .status → r ≠ .jumpLo → r ≠ .jumpHi → t.readReg r = State.reset.readReg r) ∧
      t.gen = Gen.reset ∧ t.busy = false ∧ t.ecode = .ok ∧ t.ovr = false ∧ t.seeded = false ∧
      t.ent = s.ent ∧ t.jump = s.jump ∧ t.schedule = rest

/-! ### Encoding -/

/-- The command words of R72, written out, and what the decoder reads from them. -/
def Obligations.CommandWordsDecode : Prop :=
  decode 0x000 = .ok .nop ∧ decode 0x001 = .ok .seedPair ∧ decode 0x101 = .ok .seedState ∧
  decode 0x201 = .ok .seedEntropy ∧ decode 0x002 = .ok .next64 ∧ decode 0x003 = .ok .nextF64 ∧
  decode 0x004 = .ok .bounded ∧ decode 0x005 = .ok .advance ∧ decode 0x006 = .ok .seek ∧ decode 0x007 = .ok .reset ∧
  decode 0x008 = .ok .jumped ∧ decode 0x009 = .ok .importRecord ∧ decode 0x00A = .ok .inv ∧
  decode 0x00B = .ok .affPow ∧ decode 0x00C = .ok .affComp ∧ decode 0x00D = .ok .dxsm

/-- R72: "Each legal command is therefore exactly one 64-bit word", over all 2^64 words: a word decodes to a command exactly when
it is that command's encoding. -/
def Obligations.DecodeAcceptsExactlyTheEncodings : Prop :=
  ∀ (w : Word) (i : Instr), decode w = .ok i ↔ w = encode i

/-- R74: which words are illegal, on the word as a number; that a write of one is accepted like any other (it sets BUSY); and that
it completes with E_ILLEGAL (code 1), changing nothing else, wherever the engine's turn falls: with nothing scheduled, at a
scheduled turn, or while the host waits (when the turn comes is the model's choice: logs 1, 8 and 16). -/
def Obligations.IllegalWordsCompleteWithEIllegal : Prop :=
  (∀ w : Word, (∀ i, decode w ≠ .ok i) ↔
    (w.toNat / 2 ^ 10 ≠ 0 ∨ 0x0E ≤ w.toNat % 2 ^ 8 ∨
      (w.toNat % 2 ^ 8 = 1 ∧ w.toNat / 2 ^ 8 % 4 = 3) ∨ (w.toNat % 2 ^ 8 ≠ 1 ∧ w.toNat / 2 ^ 8 % 4 ≠ 0))) ∧
  (∀ (s : State) (w : Word) (rest : List Event), (∀ i, decode w ≠ .ok i) → s.busy = false →
    s.schedule = .hostWrite 0x010 8 w :: rest →
    step s = .next { s with cmd := w, busy := true, waited := 0, reply := .accepted, schedule := rest }) ∧
  (∀ s : State, (∀ i, decode s.cmd ≠ .ok i) → s.busy = true →
    (s.schedule = [] → step s = .next { s with ecode := .illegal, busy := false, waited := 0 }) ∧
    (∀ rest, s.schedule = .engine :: rest →
      step s = .next { s with ecode := .illegal, busy := false, waited := 0, schedule := rest }) ∧
    (∀ rest, s.schedule = .hostWait :: rest → step s = .next { s with ecode := .illegal, busy := false, waited := 0 })) ∧
  ECode.illegal.code = 1

/-! ### The step -/

/-- R212, R216: while BUSY = 1 the engine's turn executes the command that CMD decodes to, whether it comes as an event, by
default, or while the host waits (when the turn comes is the model's choice: logs 1, 8 and 16). -/
def Obligations.StepRunsTheDecodedCommand : Prop :=
  ∀ (s : State) (i : Instr), s.busy = true → decode s.cmd = .ok i →
    (s.schedule = [] → step s = exec i s) ∧
    (∀ rest, s.schedule = .engine :: rest → step s = exec i { s with schedule := rest }) ∧
    (∀ rest, s.schedule = .hostWait :: rest → step s = exec i s)

/-- R234: an idle block does nothing until the next write to CMD (what the model reads into a step of an idle block: logs 2 and 23). -/
def Obligations.IdleBlockDoesNothing : Prop :=
  ∀ s : State, s.busy = false →
    (s.schedule = [] → step s = .next s) ∧
    (∀ rest, s.schedule = .engine :: rest → step s = .next { s with schedule := rest })

/-- R81: WAIT ends at the first read of STATUS with BUSY = 0, which returns the STATUS word; with BUSY = 1 it stays. WAIT as one event is the model's choice (log 16). -/
def Obligations.WaitEndsAtTheFirstIdlePoll : Prop :=
  ∀ (s : State) (rest : List Event), s.schedule = .hostWait :: rest →
    (s.busy = false → step s = .next { s with schedule := rest, reply := .data s.statusWord }) ∧
    (s.busy = true → ∀ t, step s = .next t → t.schedule = s.schedule ∧ t.reply = s.reply)

/-- R226, "The block never stops for good": whatever its state, a run whose scheduled accesses the bus accepts answers a next state
after any number of steps. -/
def Obligations.AcceptedRunsNeverStop : Prop :=
  ∀ (n : Nat) (s : State), (∀ e ∈ s.schedule, e.accepted = true) → RunsSafely n s

/-! ### Host accesses -/

/-- R36: the offset column, row by row; every register has its own offset, a multiple of 8 inside the window, and only those
offsets are mapped. -/
def Obligations.RegisterMapIsOneToOne : Prop :=
  (regAt 0x000 = some .id ∧ regAt 0x008 = some .status ∧ regAt 0x010 = some .cmd ∧
    (∀ i : Fin 8, regAt (0x020 + 8 * i.val) = some (.op i)) ∧ (∀ i : Fin 8, regAt (0x060 + 8 * i.val) = some (.res i)) ∧
    regAt 0x0A0 = some .stateLo ∧ regAt 0x0A8 = some .stateHi ∧ regAt 0x0B0 = some .incLo ∧ regAt 0x0B8 = some .incHi ∧
    regAt 0x0C0 = some .pos0 ∧ regAt 0x0C8 = some .pos1 ∧ regAt 0x0D0 = some .pos2 ∧ regAt 0x0D8 = some .pos3 ∧
    regAt 0x0E0 = some .srecStateLo ∧ regAt 0x0E8 = some .srecStateHi ∧ regAt 0x0F0 = some .srecIncLo ∧
    regAt 0x0F8 = some .srecIncHi ∧ regAt 0x100 = some .mulLo ∧ regAt 0x108 = some .mulHi ∧ regAt 0x110 = some .dxsmMul ∧
    regAt 0x118 = some .jumpLo ∧ regAt 0x120 = some .jumpHi ∧ regAt 0x128 = some .mulInvLo ∧ regAt 0x130 = some .mulInvHi) ∧
  (∀ (off : Nat) (r : Reg), regAt off = some r ↔ r.offset = off) ∧
  (∀ r : Reg, r.offset % 8 = 0 ∧ r.offset < 4096)

/-- R36, R54: what the window shows of the generator registers, the position and the constants, low word at the lower offset; and
that OPi and RESi (R14, R33, R34) read as the registers the operand views are built of and the commands write. -/
def Obligations.WindowShowsTheRegisters : Prop :=
  ∀ s : State,
    (s.readReg .stateHi ++ s.readReg .stateLo : U128) = s.gen.state ∧
    (s.readReg .incHi ++ s.readReg .incLo : U128) = s.gen.inc ∧
    (s.readReg .pos3 ++ s.readReg .pos2 ++ s.readReg .pos1 ++ s.readReg .pos0 : U256) = s.gen.pos ∧
    (s.readReg .srecStateHi ++ s.readReg .srecStateLo : U128) = s.gen.srecState ∧
    (s.readReg .srecIncHi ++ s.readReg .srecIncLo : U128) = s.gen.srecInc ∧
    (s.readReg .jumpHi ++ s.readReg .jumpLo : U128) = s.jump ∧
    s.readReg .cmd = s.cmd ∧ s.readReg .id = 0x5043473634445801 ∧
    (s.readReg .mulHi ++ s.readReg .mulLo : U128) = 0xDA942042E4DD58B5 ∧ s.readReg .dxsmMul = 0xDA942042E4DD58B5 ∧
    s.readReg (.op 0) = s.op.r0 ∧ s.readReg (.op 1) = s.op.r1 ∧ s.readReg (.op 2) = s.op.r2 ∧ s.readReg (.op 3) = s.op.r3 ∧
    s.readReg (.op 4) = s.op.r4 ∧ s.readReg (.op 5) = s.op.r5 ∧ s.readReg (.op 6) = s.op.r6 ∧ s.readReg (.op 7) = s.op.r7 ∧
    s.readReg (.res 0) = s.res.r0 ∧ s.readReg (.res 1) = s.res.r1 ∧ s.readReg (.res 2) = s.res.r2 ∧
    s.readReg (.res 3) = s.res.r3 ∧ s.readReg (.res 4) = s.res.r4 ∧ s.readReg (.res 5) = s.res.r5 ∧
    s.readReg (.res 6) = s.res.r6 ∧ s.readReg (.res 7) = s.res.r7

/-- R104: MULINV is `ModInv(MUL)`, and as the window shows it it is the inverse of MUL as the window shows it, and the only one. The
spec marks the value as derived. -/
def Obligations.MulInvIsTheInverseOfMul : Prop :=
  modInv 0xDA942042E4DD58B5 = 0x0CD365D2CB1A6A6C8B838D0354EAD59D ∧
  ∀ s : State, (s.readReg .mulInvHi ++ s.readReg .mulInvLo : U128) = 0x0CD365D2CB1A6A6C8B838D0354EAD59D ∧ ∀ v : U128,
    (s.readReg .mulHi ++ s.readReg .mulLo : U128) * v = 1 ↔ v = (s.readReg .mulInvHi ++ s.readReg .mulInvLo : U128)

/-- R53: a read at a mapped offset returns the whole value of that register and has no side effect. -/
def Obligations.ReadHasNoSideEffect : Prop :=
  ∀ (s : State) (r : Reg) (rest : List Event), s.schedule = .hostRead r.offset 8 :: rest →
    step s = .next { s with reply := .data (s.readReg r), schedule := rest }

/-- R51, R52: an access is refused, a fault of the host's step, exactly when its size is not 8, its offset is not a multiple of 8,
or R36 does not list the offset (0x018, and 0x138 to 0xFFF); the model treats an offset beyond the window the same way (log 5). -/
def Obligations.BusRefusesExactlyTheUnlistedAccesses : Prop :=
  ∀ (s : State) (rest : List Event) (off size : Nat) (v : Word),
    (s.schedule = .hostRead off size :: rest ∨ s.schedule = .hostWrite off size v :: rest) →
    ((size ≠ 8 ∨ off % 8 ≠ 0 ∨ off = 0x018 ∨ 0x138 ≤ off) → ∃ f, step s = .fault f) ∧
    (¬ (size ≠ 8 ∨ off % 8 ≠ 0 ∨ off = 0x018 ∨ 0x138 ≤ off) → ∃ t, step s = .next t)

/-- R211: a write to CMD when BUSY = 0 sets CMD and BUSY and changes nothing else, whatever the word. -/
def Obligations.CmdWriteIssues : Prop :=
  ∀ (s : State) (w : Word) (rest : List Event), s.busy = false → s.schedule = .hostWrite 0x010 8 w :: rest →
    step s = .next { s with cmd := w, busy := true, waited := 0, reply := .accepted, schedule := rest }

/-- R33, R57: a write to OPi when BUSY = 0 stores the value there; every other register keeps its value. -/
def Obligations.OperandWriteStores : Prop :=
  ∀ (s : State) (i : Fin 8) (v : Word) (rest : List Event), s.busy = false →
    s.schedule = .hostWrite (0x020 + 8 * i.val) 8 v :: rest →
    ∃ t, step s = .next t ∧ t.readReg (.op i) = v ∧ (∀ r, r ≠ .op i → t.readReg r = s.readReg r) ∧
      t.gen = s.gen ∧ t.res = s.res ∧ t.cmd = s.cmd ∧ t.waited = s.waited ∧ t.schedule = rest

/-- R215: while BUSY = 1 a write to CMD or to any OPi is dropped and sets OVR, a write to STATUS with bit 8 = 1 still clears OVR,
writes to read-only registers are ignored. The last clause, that OVR rises in no other way, is the sentence of R215 that the spec marks
as its own inference from R215 and R27 (R43 lists what writes OVR). -/
def Obligations.WritesWhileBusyAreDropped : Prop :=
  (∀ (s : State) (off : Nat) (v : Word) (rest : List Event), s.busy = true →
    (off = 0x010 ∨ ∃ i : Fin 8, off = 0x020 + 8 * i.val) → s.schedule = .hostWrite off 8 v :: rest →
    step s = .next { s with ovr := true, reply := .accepted, schedule := rest }) ∧
  (∀ (s : State) (v : Word) (rest : List Event), s.busy = true → v.getLsbD 8 = true →
    s.schedule = .hostWrite 0x008 8 v :: rest →
    step s = .next { s with ovr := false, reply := .accepted, schedule := rest }) ∧
  (∀ (s : State) (r : Reg) (v : Word) (rest : List Event), s.busy = true → r.readOnly = true →
    s.schedule = .hostWrite r.offset 8 v :: rest → step s = .next { s with reply := .accepted, schedule := rest }) ∧
  (∀ s t : State, step s = .next t → s.ovr = false → t.ovr = true →
    s.busy = true ∧ ∃ off v rest, s.schedule = .hostWrite off 8 v :: rest ∧
      (off = 0x010 ∨ ∃ i : Fin 8, off = 0x020 + 8 * i.val))

/-- R27: what sets and clears OVR. A STATUS write is accepted whether or not BUSY is 1; with bit 8 = 0 it leaves OVR unchanged; no
command changes OVR. -/
def Obligations.OvrIsStickyUntilWrittenOne : Prop :=
  (∀ (s : State) (off : Nat) (v : Word) (rest : List Event), s.busy = true →
    (off = 0x010 ∨ ∃ i : Fin 8, off = 0x020 + 8 * i.val) → s.schedule = .hostWrite off 8 v :: rest →
    ∃ t, step s = .next t ∧ t.ovr = true) ∧
  (∀ (s : State) (v : Word) (rest : List Event), s.schedule = .hostWrite 0x008 8 v :: rest →
    ∃ t, step s = .next t ∧ t.ovr = (s.ovr && !v.getLsbD 8)) ∧
  (∀ (i : Instr) (s t : State), exec i s = .next t → t.ovr = s.ovr)

/-- R42: a write to a read-only register is accepted and changes nothing; of STATUS only bit 8 can be written, and that clears only
OVR; reserved bits of STATUS read 0. -/
def Obligations.ReadOnlyRegistersIgnoreWrites : Prop :=
  (∀ (s : State) (r : Reg) (v : Word) (rest : List Event), r ≠ .cmd → r ≠ .status → (∀ i, r ≠ .op i) →
    s.schedule = .hostWrite r.offset 8 v :: rest → step s = .next { s with reply := .accepted, schedule := rest }) ∧
  (∀ (s : State) (v : Word) (rest : List Event), s.schedule = .hostWrite 0x008 8 v :: rest →
    step s = .next { s with ovr := s.ovr && !v.getLsbD 8, reply := .accepted, schedule := rest }) ∧
  (∀ (s : State) (k : Nat), (k = 3 ∨ 10 ≤ k) → (s.readReg .status).getLsbD k = false) ∧
  (∀ (s t : State) (off size : Nat) (rest : List Event), s.schedule = .hostRead off size :: rest → step s = .next t →
    ∀ r, t.readReg r = s.readReg r)

/-- R23, R24 to R28: the fields of the STATUS word, as a number; and the number of every outcome code (R220). -/
def Obligations.StatusWordLayout : Prop :=
  (ECode.ok.code = 0 ∧ ECode.illegal.code = 1 ∧ ECode.unseeded.code = 2 ∧ ECode.bound.code = 3 ∧ ECode.even.code = 4 ∧
    ECode.noEntropy.code = 5 ∧ ECode.posRange.code = 6) ∧
  ∀ s : State, (s.readReg .status).toNat =
    s.busy.toNat + 2 * s.gen.seeded.toNat + 4 * (decide (s.ecode ≠ .ok)).toNat + 16 * s.ecode.code.toNat
      + 256 * s.ovr.toNat + 512 * s.ent.toNat

/-- R214, R60: a host access that comes while a command is pending leaves the command, its operands and every register it may write
as they were. -/
def Obligations.PendingCommandIsUntouchedByAccesses : Prop :=
  ∀ (s t : State) (e : Event) (rest : List Event), s.busy = true → s.schedule = e :: rest →
    ((∃ off size, e = .hostRead off size) ∨ ∃ off size v, e = .hostWrite off size v) → step s = .next t →
    t.gen = s.gen ∧ t.res = s.res ∧ t.op = s.op ∧ t.cmd = s.cmd ∧ t.busy = true ∧ t.ecode = s.ecode ∧
      t.waited = s.waited ∧ t.entropy = s.entropy ∧ t.schedule = rest

/-! ### Operands -/

/-- R14: the wide views of the operand bank, as numbers; P read as signed is two's complement (R13). -/
def Obligations.OperandViewsAreTheNamedRegisters : Prop :=
  ∀ s : State,
    s.opA.toNat = s.op.r1.toNat * 2 ^ 64 + s.op.r0.toNat ∧ s.opB.toNat = s.op.r3.toNat * 2 ^ 64 + s.op.r2.toNat ∧
    s.opC.toNat = s.op.r5.toNat * 2 ^ 64 + s.op.r4.toNat ∧ s.opD.toNat = s.op.r7.toNat * 2 ^ 64 + s.op.r6.toNat ∧
    s.opP.toNat = s.opD.toNat * 2 ^ 128 + s.opC.toNat ∧
    s.opPSigned = if s.opP.toNat < 2 ^ 255 then (s.opP.toNat : Int) else (s.opP.toNat : Int) - 2 ^ 256

/-! ### NOP and seeding -/

/-- R210: NOP succeeds and writes nothing but ECODE = 0. -/
def Obligations.NopWritesOnlyEcode : Prop :=
  decode 0 = .ok .nop ∧ ∀ s : State, exec .nop s = .next { s with ecode := .ok, busy := false, waited := 0 }

/-- R161: SEED.PAIR, on numbers: the increment forced odd, the state (A + inc)*MUL + inc modulo 2^128, position 0, the record
(A, inc). -/
def Obligations.SeedPairSeedsFromAAndB : Prop :=
  decode 0x1 = .ok .seedPair ∧
  ∀ (s : State) (inc : Nat), inc = (if s.opB.toNat % 2 = 0 then s.opB.toNat + 1 else s.opB.toNat) →
    exec .seedPair s = .next { s with
      gen := {
        state := BitVec.ofNat 128 ((s.opA.toNat + inc) * 0xDA942042E4DD58B5 + inc)
        inc := BitVec.ofNat 128 inc
        pos := 0
        srecState := s.opA
        srecInc := BitVec.ofNat 128 inc
        seeded := true }
      ecode := .ok, busy := false, waited := 0 }

/-- R162: SEED.STATE, on numbers: the increment 1. That it is SEED.PAIR with B = 0 or B = 1 is the corner case that the spec marks as
derived from R161. -/
def Obligations.SeedStateSeedsFromA : Prop :=
  decode 0x101 = .ok .seedState ∧
  ∀ s : State,
    exec .seedState s = .next { s with
      gen := {
        state := BitVec.ofNat 128 ((s.opA.toNat + 1) * 0xDA942042E4DD58B5 + 1)
        inc := 1
        pos := 0
        srecState := s.opA
        srecInc := 1
        seeded := true }
      ecode := .ok, busy := false, waited := 0 } ∧
    (s.opB = 0 ∨ s.opB = 1 → exec .seedPair s = exec .seedState s)

/-- R163: SEED.ENTROPY. Without a source, or when the draw is Unavailable, E_NO_ENTROPY and nothing else; with 32 bytes e, SEED.PAIR's
effect with the two big-endian halves of e. The source's next answer is whatever it is. -/
def Obligations.SeedEntropySeedsFromTheDraw : Prop :=
  decode 0x201 = .ok .seedEntropy ∧
  ∀ s : State,
    (s.ent = false → exec .seedEntropy s = .next { s with ecode := .noEntropy, busy := false, waited := 0 }) ∧
    (s.ent = true → s.entropy = .unavailable → ∃ a n,
      exec .seedEntropy s =
        .next { s with ecode := .noEntropy, busy := false, waited := 0, entropy := a, entropyUses := n }) ∧
    (∀ e : Vector Byte 32, s.ent = true → s.entropy = .bytes e → ∀ (ss si inc : Nat),
      ss = ∑ i ∈ Finset.range 16, (e.toList.getD i 0).toNat * 2 ^ (8 * (15 - i)) →
      si = ∑ i ∈ Finset.range 16, (e.toList.getD (16 + i) 0).toNat * 2 ^ (8 * (15 - i)) →
      inc = (if si % 2 = 0 then si + 1 else si) →
      ∃ a n, exec .seedEntropy s = .next { s with
        gen := {
          state := BitVec.ofNat 128 ((ss + inc) * 0xDA942042E4DD58B5 + inc)
          inc := BitVec.ofNat 128 inc
          pos := 0
          srecState := BitVec.ofNat 128 ss
          srecInc := BitVec.ofNat 128 inc
          seeded := true }
        ecode := .ok, busy := false, waited := 0, entropy := a, entropyUses := n })

/-- R165, R226: a source that never answers leaves the command pending for ever, with no register changed (how silence is
represented is the model's choice: log 12). -/
def Obligations.SilentEntropySourceLeavesBusy : Prop :=
  ∀ (s : State), s.ent = true → s.entropy = .silent → s.busy = true → s.cmd = 0x201 → s.schedule = [] →
    ∀ n : Nat, Sys2Proof.core.run n s = .next { s with waited := s.waited + n }

/-! ### Draws -/

/-- R106: the DXSM permutation on numbers, every intermediate reduced modulo 2^64. That a state whose high 64
bits are 0 gives 0 is the corner case that the spec marks as derived from the rule. -/
def Obligations.DxsmPermutationOnNumbers : Prop :=
  ∀ (s : U128) (hi lo h1 h2 h3 : Nat), hi = s.toNat / 2 ^ 64 → lo = s.toNat % 2 ^ 64 ||| 1 →
    h1 = hi ^^^ hi / 2 ^ 32 → h2 = h1 * 0xDA942042E4DD58B5 % 2 ^ 64 → h3 = h2 ^^^ h2 / 2 ^ 48 →
    (dxsmPermute s).toNat = h3 * lo % 2 ^ 64 ∧ (hi = 0 → dxsmPermute s = 0)

/-- R168: DXSM writes the permutation of A to RES0 and nothing else, seeded or not. -/
def Obligations.DxsmCommandPermutesA : Prop :=
  decode 0xD = .ok .dxsm ∧
  ∀ s : State, exec .dxsm s =
    .next { s with res := { s.res with r0 := dxsmPermute s.opA }, ecode := .ok, busy := false, waited := 0 }

/-- R166: NEXT64: E_UNSEEDED, then E_POS_RANGE at 2^255 - 1, else RES0 is the permutation of the state before the step, the state
takes one step and the position goes up by 1. -/
def Obligations.Next64DrawsOnce : Prop :=
  decode 0x2 = .ok .next64 ∧
  ∀ s : State,
    (s.gen.seeded = false → exec .next64 s = .next { s with ecode := .unseeded, busy := false, waited := 0 }) ∧
    (s.gen.seeded = true → s.gen.pos.toInt = 2 ^ 255 - 1 →
      exec .next64 s = .next { s with ecode := .posRange, busy := false, waited := 0 }) ∧
    (s.gen.seeded = true → s.gen.pos.toInt ≠ 2 ^ 255 - 1 →
      exec .next64 s = .next { s with
        gen := { s.gen with
          state := BitVec.ofNat 128 (s.gen.state.toNat * 0xDA942042E4DD58B5 + s.gen.inc.toNat)
          pos := s.gen.pos + 1 }
        res := { s.res with r0 := dxsmPermute s.gen.state }
        ecode := .ok, busy := false, waited := 0 })

/-- R167: NEXTF64: as NEXT64, with the draw converted by F64. -/
def Obligations.NextF64DrawsOnce : Prop :=
  decode 0x3 = .ok .nextF64 ∧
  ∀ s : State,
    (s.gen.seeded = false → exec .nextF64 s = .next { s with ecode := .unseeded, busy := false, waited := 0 }) ∧
    (s.gen.seeded = true → s.gen.pos.toInt = 2 ^ 255 - 1 →
      exec .nextF64 s = .next { s with ecode := .posRange, busy := false, waited := 0 }) ∧
    (s.gen.seeded = true → s.gen.pos.toInt ≠ 2 ^ 255 - 1 →
      exec .nextF64 s = .next { s with
        gen := { s.gen with
          state := BitVec.ofNat 128 (s.gen.state.toNat * 0xDA942042E4DD58B5 + s.gen.inc.toNat)
          pos := s.gen.pos + 1 }
        res := { s.res with r0 := f64 (dxsmPermute s.gen.state) }
        ecode := .ok, busy := false, waited := 0 })

/-- R116: F64(x) is the binary64 pattern of exactly (x >> 11) * 2^-53, with sign bit 0, +0.0 for 0, and at most
0x3FEF_FFFF_FFFF_FFFF. How a pattern is read is the layout G1, from general knowledge (log 25). -/
def Obligations.F64IsExact : Prop :=
  ∀ x : Word, binary64Value (f64 x) = ((x.toNat / 2 ^ 11 : Nat) : ℚ) / 2 ^ 53 ∧ (f64 x).getLsbD 63 = false ∧
    (x.toNat / 2 ^ 11 = 0 → f64 x = 0) ∧ (f64 x).toNat ≤ 0x3FEFFFFFFFFFFFFF

/-! ### Bounded sampling -/

/-- R200, R115: BOUNDED completes with the first accepted draw's result, having consumed one draw for every rejected one and one
for the accepted one. How many draws one engine turn goes through is the model's choice (log 13). -/
def Obligations.BoundedReturnsTheFirstAcceptedDraw : Prop :=
  decode 0x4 = .ok .bounded ∧
  ∀ (s : State) (k : Nat), s.gen.seeded = true → 1 ≤ s.opA.toNat → s.opA.toNat ≤ 2 ^ 64 →
    FirstAccepted s.gen s.opA.toNat k → k ≤ Config.lemireFuel + s.waited → s.gen.pos.toInt + (k + 1) ≤ 2 ^ 255 - 1 →
    exec .bounded s = .next { s with
      gen := { s.gen with
        state := forward s.gen.inc (k + 1) s.gen.state
        pos := s.gen.pos + BitVec.ofNat 256 (k + 1) }
      res := { s.res with r0 := BitVec.ofNat 64 ((nthDraw s.gen k).toNat * s.opA.toNat / 2 ^ 64) }
      ecode := .ok, busy := false, waited := 0 }

/-- R200, R221: BOUNDED's errors in priority order: E_UNSEEDED; E_BOUND; E_POS_RANGE when a draw would take the position past
2^255 - 1 before any draw is accepted, none of the draws being committed. -/
def Obligations.BoundedErrors : Prop :=
  ∀ s : State,
    (s.gen.seeded = false → exec .bounded s = .next { s with ecode := .unseeded, busy := false, waited := 0 }) ∧
    (s.gen.seeded = true → (s.opA.toNat = 0 ∨ 2 ^ 64 < s.opA.toNat) →
      exec .bounded s = .next { s with ecode := .bound, busy := false, waited := 0 }) ∧
    (∀ k : Nat, s.gen.seeded = true → 1 ≤ s.opA.toNat → s.opA.toNat ≤ 2 ^ 64 →
      NoneAcceptedBefore s.gen s.opA.toNat k → k ≤ Config.lemireFuel + s.waited → s.gen.pos.toInt + k = 2 ^ 255 - 1 →
      exec .bounded s = .next { s with ecode := .posRange, busy := false, waited := 0 })

/-- R202: when the draws of one engine turn are all rejected the command is "not completed": BUSY stays 1, no register changes and
no value is reported. The number of draws a turn goes through is the model's choice (log 13). -/
def Obligations.BoundedOutOfFuelIsNotCompleted : Prop :=
  ∀ s : State, s.gen.seeded = true → 1 ≤ s.opA.toNat → s.opA.toNat ≤ 2 ^ 64 →
    NoneAcceptedBefore s.gen s.opA.toNat (Config.lemireFuel + s.waited + 1) →
    s.gen.pos.toInt + (Config.lemireFuel + s.waited + 1 : Nat) ≤ 2 ^ 255 - 1 →
    exec .bounded s = .next { s with waited := s.waited + 1 }

/-- R202, R262: a pending BOUNDED whose loop ends completes after finitely many engine turns, with the value of its first accepted
draw, however many draws that takes. -/
def Obligations.BoundedCompletesWhenItsLoopEnds : Prop :=
  ∀ (s : State) (k : Nat), s.busy = true → s.cmd = 0x4 → s.schedule = [] → s.gen.seeded = true →
    1 ≤ s.opA.toNat → s.opA.toNat ≤ 2 ^ 64 → FirstAccepted s.gen s.opA.toNat k →
    s.gen.pos.toInt + (k + 1) ≤ 2 ^ 255 - 1 →
    ∃ n ≤ k + 1, Sys2Proof.core.run n s = .next { s with
      gen := { s.gen with
        state := forward s.gen.inc (k + 1) s.gen.state
        pos := s.gen.pos + BitVec.ofNat 256 (k + 1) }
      res := { s.res with r0 := BitVec.ofNat 64 ((nthDraw s.gen k).toNat * s.opA.toNat / 2 ^ 64) }
      ecode := .ok, busy := false, waited := 0 }

/-- R203: "no outcome ≥ B is ever produced". -/
def Obligations.BoundedOutcomeIsBelowTheBound : Prop :=
  ∀ s t : State, s.busy = true → exec .bounded s = .next t → t.busy = false → t.ecode = .ok →
    t.res.r0.toNat < s.opA.toNat

/-- R200, "an unbiased integer in [0, Bd)": for every bound and every value below it, exactly floor(2^64 / Bd) of the 2^64 raw draws
are accepted with that value. -/
def Obligations.LemireSamplingIsUnbiased : Prop :=
  ∀ (bd : Nat) (r : Word), 1 ≤ bd → bd ≤ 2 ^ 64 → r.toNat < bd →
    {x : Word | Accepts bd x ∧ lemireResult bd x = r}.ncard = 2 ^ 64 / bd

/-! ### Positioning -/

/-- R142: ADVANCE moves the state by d raw steps, counted one by one, and the position by d; E_UNSEEDED comes first, then
E_POS_RANGE. -/
def Obligations.AdvanceMovesByRawSteps : Prop :=
  decode 0x5 = .ok .advance ∧
  ∀ s : State,
    (s.gen.seeded = false → exec .advance s = .next { s with ecode := .unseeded, busy := false, waited := 0 }) ∧
    (s.gen.seeded = true →
      (s.gen.pos.toInt + s.opPSigned < -2 ^ 255 ∨ 2 ^ 255 - 1 < s.gen.pos.toInt + s.opPSigned) →
      exec .advance s = .next { s with ecode := .posRange, busy := false, waited := 0 }) ∧
    (s.gen.seeded = true → -2 ^ 255 ≤ s.gen.pos.toInt + s.opPSigned → s.gen.pos.toInt + s.opPSigned ≤ 2 ^ 255 - 1 →
      ∃ st, Reaches s.gen.inc s.gen.state s.opPSigned st ∧
        exec .advance s = .next { s with
          gen := { s.gen with state := st, pos := BitVec.ofInt 256 (s.gen.pos.toInt + s.opPSigned) }
          ecode := .ok, busy := false, waited := 0 })

/-- R143: ADVANCE by d and then by -d restores the generator when both succeed; ADVANCE by n leaves the same generator as n NEXT64
commands, and no outputs. The spec marks R143 as derived from R113 and R118. -/
def Obligations.AdvanceUndoesAndReplacesDraws : Prop :=
  (∀ s t u : State, ∀ op : Bank, s.busy = true → exec .advance s = .next t → t.busy = false → t.ecode = .ok →
    ({ t with op := op, busy := true } : State).opPSigned = -s.opPSigned →
    exec .advance { t with op := op, busy := true } = .next u → u.busy = false → u.ecode = .ok → u.gen = s.gen) ∧
  (∀ (s : State) (n : Nat), s.gen.seeded = true → 0 < n → s.opPSigned = n → s.gen.pos.toInt + n ≤ 2 ^ 255 - 1 →
    ∃ t u, exec .advance s = .next t ∧ execTimes .next64 n s = .next u ∧ t.gen = u.gen ∧ t.res = s.res)

/-- R118: `AdvanceFn` by d and then by -d is the identity, and by d1 and then by d2 is by d1 + d2, when every position update is in
range. The spec marks R118 as derived. -/
def Obligations.AdvanceFnIsInvertibleAndAdditive : Prop :=
  (∀ (g g' g'' : Gen) (d : Int), advanceFn g d = .ok g' → advanceFn g' (-d) = .ok g'' → g'' = g) ∧
  (∀ (g g1 g2 g3 : Gen) (d1 d2 : Int), advanceFn g d1 = .ok g1 → advanceFn g1 d2 = .ok g2 →
    advanceFn g (d1 + d2) = .ok g3 → g2 = g3)

/-- R117: for odd inc the 2^128-th powers of the forward and the backward step are the identity, so exponents may be reduced modulo
2^128. The spec marks R117 as derived. -/
def Obligations.StepsHavePeriodTwoToThe128 : Prop :=
  ∀ inc : U128, inc.getLsbD 0 = true →
    (Affine.base inc).pow (2 ^ 128) = Affine.identity ∧ (Affine.invBase inc).pow (2 ^ 128) = Affine.identity ∧
    ∀ n : Nat, (Affine.base inc).pow n = (Affine.base inc).pow (n % 2 ^ 128) ∧
      (Affine.invBase inc).pow n = (Affine.invBase inc).pow (n % 2 ^ 128)

/-- R117's "guaranteed period of 2^128" from every start state: with an odd increment a state comes back after exactly the multiples
of 2^128 steps. The claim is the source's; its ground is the spec's inference. -/
def Obligations.LcgHasFullPeriod : Prop :=
  ∀ (inc x : U128) (n : Nat), inc.getLsbD 0 = true → (forward inc n x = x ↔ 2 ^ 128 ∣ n)

/-- R169: SEEK goes to position s256val(P) counted from the seed point of the record, whatever the current state and position; it
never reports E_POS_RANGE. The spec marks that, and that advancing is counting raw steps (R113), as derived. -/
def Obligations.SeekGoesToThePosition : Prop :=
  decode 0x6 = .ok .seek ∧
  ∀ s : State,
    (s.gen.seeded = false → exec .seek s = .next { s with ecode := .unseeded, busy := false, waited := 0 }) ∧
    (∀ inc : U128, s.gen.seeded = true → inc = s.gen.srecInc ||| 1 →
      ∃ st, Reaches inc (BitVec.ofNat 128 ((s.gen.srecState.toNat + inc.toNat) * 0xDA942042E4DD58B5 + inc.toNat))
          s.opPSigned st ∧
        exec .seek s = .next { s with
          gen := { state := st, inc := inc, pos := s.opP, srecState := s.gen.srecState, srecInc := inc, seeded := true }
          ecode := .ok, busy := false, waited := 0 })

/-- R170: RESET is SEEK 0: it goes to the seed point, position 0. -/
def Obligations.ResetIsSeekZero : Prop :=
  decode 0x7 = .ok .reset ∧
  ∀ s : State,
    (s.gen.seeded = false → exec .reset s = .next { s with ecode := .unseeded, busy := false, waited := 0 }) ∧
    (∀ inc : U128, s.gen.seeded = true → inc = s.gen.srecInc ||| 1 →
      exec .reset s = .next { s with
        gen := {
          state := BitVec.ofNat 128 ((s.gen.srecState.toNat + inc.toNat) * 0xDA942042E4DD58B5 + inc.toNat)
          inc := inc
          pos := 0
          srecState := s.gen.srecState
          srecInc := inc
          seeded := true }
        ecode := .ok, busy := false, waited := 0 }) ∧
    (s.opP = 0 → exec .reset s = exec .seek s)

/-- R171: JUMPED delivers a copy advanced by s256val(P) * JUMP_DISTANCE in R (state), S (increment) and Q (position) and leaves the
generator unmodified; for every value of the parameter. -/
def Obligations.JumpedDeliversTheClone : Prop :=
  decode 0x8 = .ok .jumped ∧
  ∀ (s : State) (delta : Int), delta = s.opPSigned * s.jump.toNat →
    (s.gen.seeded = false → exec .jumped s = .next { s with ecode := .unseeded, busy := false, waited := 0 }) ∧
    (s.gen.seeded = true → (s.gen.pos.toInt + delta < -2 ^ 255 ∨ 2 ^ 255 - 1 < s.gen.pos.toInt + delta) →
      exec .jumped s = .next { s with ecode := .posRange, busy := false, waited := 0 }) ∧
    (s.gen.seeded = true → -2 ^ 255 ≤ s.gen.pos.toInt + delta → s.gen.pos.toInt + delta ≤ 2 ^ 255 - 1 →
      ∃ r : Bank, exec .jumped s = .next { s with res := r, ecode := .ok, busy := false, waited := 0 } ∧
        Reaches s.gen.inc s.gen.state delta (r.r1 ++ r.r0 : U128) ∧ (r.r3 ++ r.r2 : U128) = s.gen.inc ∧
        (r.r7 ++ r.r6 ++ r.r5 ++ r.r4 : U256).toInt = s.gen.pos.toInt + delta)

/-- R172: IMPORT loads A, B forced odd and P, and derives the seed state whose seeding and s256val(P) draws reach A, which the spec
marks as derived from R110; it is the only such seed state. -/
def Obligations.ImportLoadsTheRecord : Prop :=
  decode 0x9 = .ok .importRecord ∧
  ∀ (s : State) (inc : U128), inc = s.opB ||| 1 →
    ∃ ss : U128,
      exec .importRecord s = .next { s with
        gen := { state := s.opA, inc := inc, pos := s.opP, srecState := ss, srecInc := inc, seeded := true }
        ecode := .ok, busy := false, waited := 0 } ∧
      ∀ v : U128, Reaches inc (BitVec.ofNat 128 ((v.toNat + inc.toNat) * 0xDA942042E4DD58B5 + inc.toNat)) s.opPSigned s.opA
        ↔ v = ss

/-- R173: importing what was exported writes back the same generator, the seed record included. The invariant is the one every step
keeps. The spec marks the round trip as derived. -/
def Obligations.ImportOfTheExportRestoresTheGenerator : Prop :=
  ∀ s : State, s.gen.Inv → s.gen.seeded = true → s.opA = s.gen.state → s.opB = s.gen.inc → s.opP = s.gen.pos →
    exec .importRecord s = .next { s with ecode := .ok, busy := false, waited := 0 }

/-! ### The arithmetic units -/

/-- R132: INV writes the unique inverse of an odd A modulo 2^128 to R, and fails with E_EVEN on an even A; seeded or
not. The spec marks the uniqueness (R131) as derived. -/
def Obligations.InvWritesTheUniqueInverse : Prop :=
  decode 0xA = .ok .inv ∧
  ∀ s : State,
    (s.opA.toNat % 2 = 0 → exec .inv s = .next { s with ecode := .even, busy := false, waited := 0 }) ∧
    (s.opA.toNat % 2 = 1 → ∃ hi lo : Word,
      exec .inv s = .next { s with res := { s.res with r0 := lo, r1 := hi }, ecode := .ok, busy := false, waited := 0 } ∧
      ∀ v : U128, s.opA.toNat * v.toNat % 2 ^ 128 = 1 ↔ v = hi ++ lo)

/-- R140: AFFCOMP, on numbers: R = C*A and S = C*B + D modulo 2^128; as functions, T2 after T1, which the
spec marks as derived (R108). -/
def Obligations.AffCompComposes : Prop :=
  decode 0xC = .ok .affComp ∧
  ∀ s : State, ∃ r1 r0 s1 s0 : Word,
    exec .affComp s = .next { s with
      res := { s.res with r0 := r0, r1 := r1, r2 := s0, r3 := s1 }, ecode := .ok, busy := false, waited := 0 } ∧
    (r1 ++ r0 : U128).toNat = s.opC.toNat * s.opA.toNat % 2 ^ 128 ∧
    (s1 ++ s0 : U128).toNat = (s.opC.toNat * s.opB.toNat + s.opD.toNat) % 2 ^ 128 ∧
    ∀ x : U128, (r1 ++ r0 : U128) * x + (s1 ++ s0 : U128) = s.opC * (s.opA * x + s.opB) + s.opD

/-- R141: AFFPOW: the transform in R and S is the P-fold composition of (A, B), P unsigned, and it is the only such pair.
The spec marks both as derived (R109, R117). -/
def Obligations.AffPowIteratesTheTransform : Prop :=
  decode 0xB = .ok .affPow ∧
  ∀ s : State, ∃ r1 r0 s1 s0 : Word,
    exec .affPow s = .next { s with
      res := { s.res with r0 := r0, r1 := r1, r2 := s0, r3 := s1 }, ecode := .ok, busy := false, waited := 0 } ∧
    ∀ m c : U128, (∀ x, m * x + c = (fun y => s.opA * y + s.opB)^[s.opP.toNat] x) ↔ m = r1 ++ r0 ∧ c = s1 ++ s0

/-! ### Whole-machine rules -/

/-- R39, R40: every step keeps the invariants of the generator: odd increment, record in agreement, seek invariant, and an unseeded
generator at its reset values. -/
def Obligations.StepKeepsTheInvariant : Prop :=
  ∀ s t : State, s.Inv → step s = .next t → t.Inv

/-- The invariant holds after reset. -/
def Obligations.ResetHasTheInvariant : Prop := State.reset.Inv

/-- R213: a completion step that reports an error, wherever the engine's turn falls, sets ECODE and BUSY and writes no other
register, STATUS.OVR included. The turn counter, the entropy source's next answer and the schedule are the model's own (logs 1, 11
and 13). -/
def Obligations.FailureWritesOnlyEcodeAndBusy : Prop :=
  ∀ s t : State, s.busy = true →
    (s.schedule = [] ∨ (∃ rest, s.schedule = .engine :: rest) ∨ ∃ rest, s.schedule = .hostWait :: rest) →
    step s = .next t → t.busy = false → t.ecode ≠ .ok →
    t = { s with
      ecode := t.ecode, busy := false, waited := 0, entropy := t.entropy, entropyUses := t.entropyUses, schedule := t.schedule }

/-- R220, R221: the codes a command may complete with, and that E_UNSEEDED comes before every other error of a command that needs a
seeded generator and is reported in no other case. -/
def Obligations.OutcomeCodesByCommand : Prop :=
  ∀ (i : Instr) (s t : State), s.busy = true → exec i s = .next t → t.busy = false →
    (t.ecode = .ok ∨ t.ecode ∈ i.mayReport) ∧ (t.ecode = .unseeded ↔ i.needsSeeded = true ∧ s.gen.seeded = false)

/-- R25: G.seeded is 0 after reset, set by a successful SEED.* or IMPORT and by nothing else, cleared by no command; STATUS bit 1
shows it; and while it is 0 the commands that need it fail with E_UNSEEDED. -/
def Obligations.SeededIsSetBySeedingOnly : Prop :=
  State.reset.gen.seeded = false ∧
  (∀ s : State, (s.readReg .status).getLsbD 1 = s.gen.seeded) ∧
  (∀ (i : Instr) (s t : State), s.busy = true → exec i s = .next t → i.seeds = true → t.busy = false → t.ecode = .ok →
    t.gen.seeded = true) ∧
  (∀ (i : Instr) (s t : State), exec i s = .next t → s.gen.seeded = true → t.gen.seeded = true) ∧
  (∀ (i : Instr) (s t : State), exec i s = .next t → s.gen.seeded = false → t.gen.seeded = true → i.seeds = true) ∧
  (∀ (i : Instr) (s : State), i.needsSeeded = true → s.gen.seeded = false →
    exec i s = .next { s with ecode := .unseeded, busy := false, waited := 0 })

/-- R30: in every state that meets the invariant only hardware reset and a SEED.* or IMPORT change the increment; and JUMPED, INV,
AFFPOW, AFFCOMP, DXSM and NOP never change a generator register. -/
def Obligations.OnlySeedingWritesTheIncrement : Prop :=
  (∀ s t : State, s.gen.Inv → step s = .next t → t.gen.inc ≠ s.gen.inc →
    (∃ rest, s.schedule = .hardwareReset :: rest) ∨ (s.busy = true ∧ ∃ i, decode s.cmd = .ok i ∧ i.seeds = true)) ∧
  (∀ (i : Instr) (s t : State), i ∈ [Instr.jumped, .inv, .affPow, .affComp, .dxsm, .nop] → exec i s = .next t →
    t.gen = s.gen)

/-- R33 and R27, R29: no command writes an operand register, CMD, OVR or a constant; nor does it touch the host's side. -/
def Obligations.NoCommandWritesOperandsOrCmd : Prop :=
  ∀ (i : Instr) (s t : State), exec i s = .next t →
    t.op = s.op ∧ t.cmd = s.cmd ∧ t.ovr = s.ovr ∧ t.ent = s.ent ∧ t.jump = s.jump ∧ t.reply = s.reply ∧
      t.schedule = s.schedule

/-- R34 and the "Registers written" line of every command: in every state that meets the invariant, each register of the window but
STATUS that the command's rule does not name reads as before, and so do OVR and ENT. -/
def Obligations.CommandsWriteOnlyTheNamedRegisters : Prop :=
  ∀ (i : Instr) (s t : State), s.gen.Inv → exec i s = .next t →
    (∀ r, r ≠ .status → r ∉ i.written → t.readReg r = s.readReg r) ∧
    (t.readReg .status).getLsbD 8 = (s.readReg .status).getLsbD 8 ∧
    (t.readReg .status).getLsbD 9 = (s.readReg .status).getLsbD 9 ∧
    (i.seeds = false → (t.readReg .status).getLsbD 1 = (s.readReg .status).getLsbD 1)

/-- R177: what a command leaves in the generator, whether it completes, its code and the result registers it writes are a function of
the generator, the operands and, for SEED.ENTROPY alone, the entropy source; JUMP_DISTANCE is a parameter, and how many turns a
BOUNDED has had only says whether this turn completes it (log 13). The spec marks R177 as derived. -/
def Obligations.OutcomeIsAFunctionOfGeneratorAndOperands : Prop :=
  ∀ (i : Instr) (s s' t t' : State), s.busy = true → s'.busy = true → s.gen = s'.gen → s.op = s'.op →
    (i = .seedEntropy → s.ent = s'.ent ∧ s.entropy = s'.entropy) → (i = .jumped → s.jump = s'.jump) →
    (i = .bounded → s.waited = s'.waited) → exec i s = .next t → exec i s' = .next t' →
    t.gen = t'.gen ∧ t.busy = t'.busy ∧ (t.busy = false → t.ecode = t'.ecode) ∧
      (t.busy = false → t.ecode = .ok → ∀ r ∈ i.written, t.readReg r = t'.readReg r)
end

