-- ==== Sys2Proof/Laws/Arith.lean ====
section
/-! SUPPORT. Small lemmas of the arithmetic: halves of a u128, MUL and its inverse, the LCG step and its undoing. -/

namespace Sys2Proof.Machine

theorem hi64_toNat (v : U128) : (hi64 v).toNat = v.toNat / 2 ^ 64 := by
  have := v.isLt
  simp only [hi64, BitVec.extractLsb'_toNat, Nat.shiftRight_eq_div_pow]
  omega

theorem lo64_toNat (v : U128) : (lo64 v).toNat = v.toNat % 2 ^ 64 := by
  simp [lo64]

/-- A 128-bit view as a number (R14). -/
theorem append_toNat (h l : Word) : (h ++ l : U128).toNat = h.toNat * 2 ^ 64 + l.toNat := by
  have hl := l.isLt
  rw [BitVec.toNat_append, Nat.shiftLeft_eq, ← Nat.shiftLeft_eq, Nat.shiftLeft_add_eq_or_of_lt hl]

/-- `{hi, lo}` of a value is the value (R12). -/
@[simp] theorem hi64_append_lo64 (v : U128) : (hi64 v ++ lo64 v : U128) = v := by
  apply BitVec.eq_of_toNat_eq
  rw [append_toNat, hi64_toNat, lo64_toNat]; omega

@[simp] theorem lo64_append (h l : Word) : lo64 (h ++ l) = l := by
  apply BitVec.eq_of_toNat_eq
  rw [lo64_toNat, append_toNat]; omega

@[simp] theorem hi64_append (h l : Word) : hi64 (h ++ l) = h := by
  apply BitVec.eq_of_toNat_eq
  rw [hi64_toNat, append_toNat]; omega

/-- A 256-bit view as a number (R14). -/
theorem append4_toNat (a b c d : Word) :
    (a ++ b ++ c ++ d : U256).toNat = ((a.toNat * 2 ^ 64 + b.toNat) * 2 ^ 64 + c.toNat) * 2 ^ 64 + d.toNat := by
  have hb := b.isLt
  have hc := c.isLt
  have hd := d.isLt
  simp only [BitVec.toNat_append]
  rw [← Nat.shiftLeft_add_eq_or_of_lt hb, ← Nat.shiftLeft_add_eq_or_of_lt hc, ← Nat.shiftLeft_add_eq_or_of_lt hd]
  simp only [Nat.shiftLeft_eq]

/-- The four 64-bit words of a 256-bit value, put together, are the value (R54). -/
@[simp] theorem words_append (v : U256) :
    (v.extractLsb' 192 64 ++ v.extractLsb' 128 64 ++ v.extractLsb' 64 64 ++ v.extractLsb' 0 64 : U256) = v := by
  apply BitVec.eq_of_toNat_eq
  have hv := v.isLt
  rw [append4_toNat]
  simp only [BitVec.extractLsb'_toNat, Nat.shiftRight_eq_div_pow]
  omega

/-- `mul128(MUL, MULINV) = 1` (R104). -/
theorem lcgMulInv_mul_lcgMul : lcgMulInv * lcgMul = 1 := by decide
theorem lcgMul_mul_lcgMulInv : lcgMul * lcgMulInv = 1 := by decide

/-- DXSM_MUL as a number (R103). -/
theorem dxsmMul_toNat : dxsmMul.toNat = 0xDA942042E4DD58B5 := rfl

/-- The LCG step on numbers (R105). -/
theorem lcgStep_toNat (s inc : U128) :
    (lcgStep s inc).toNat = (s.toNat * 0xDA942042E4DD58B5 + inc.toNat) % 2 ^ 128 := by
  rw [lcgStep, BitVec.toNat_add, BitVec.toNat_mul, Nat.mod_add_mod]; rfl

theorem lcgStep_back (s inc : U128) : (lcgStep s inc - inc) * lcgMulInv = s := by
  have : (lcgStep s inc - inc) * lcgMulInv = s * (lcgMul * lcgMulInv) := by simp only [lcgStep]; ring
  rw [this, lcgMul_mul_lcgMulInv]; simp

theorem lcgStep_injective (inc : U128) : Function.Injective fun s => lcgStep s inc := fun a b h => by
  have := congrArg (fun x => (x - inc) * lcgMulInv) h
  simpa only [lcgStep_back] using this

/-- The odd-forced increment is odd. -/
@[simp] theorem or_one_odd (v : U128) : (v ||| 1).getLsbD 0 = true := by simp

/-- Forcing odd, on numbers. -/
theorem or_one_toNat (v : U128) : (v ||| 1).toNat = if v.toNat % 2 = 0 then v.toNat + 1 else v.toNat := by
  have h1 : (1 : U128).toNat = 1 := rfl
  have h := Nat.or_div_two (a := v.toNat) (b := 1)
  have h2 : (v.toNat ||| 1) % 2 = 1 := Nat.or_mod_two_eq_one.2 (.inr rfl)
  rw [BitVec.toNat_or, h1]
  simp at h
  split <;> omega

/-- Forcing an odd value odd changes nothing. -/
theorem or_one_of_odd (v : U128) (h : v.getLsbD 0 = true) : v ||| 1 = v := by
  ext i hi
  rcases Nat.eq_zero_or_pos i with rfl | hp
  · simpa [BitVec.getLsbD_eq_getElem] using h
  · have hi : i ≠ 0 := by omega
    simp [BitVec.getElem_or, BitVec.getElem_one, hi]

end Sys2Proof.Machine
end

