-- ==== Sys2Proof/Laws/Affine.lean ====
section
/-! SUPPORT. Affine transforms as functions: a composition is the composed function, a power is the iterated function, and moving a
state by d raw steps is what counting them one by one gives. -/

namespace Sys2Proof.Machine

@[simp] theorem Affine.app_identity (x : U128) : Affine.identity.app x = x := by
  simp [Affine.app, Affine.identity]

theorem Affine.app_compose (t2 t1 : Affine) (x : U128) : (Affine.compose t2 t1).app x = t2.app (t1.app x) := by
  simp only [Affine.app, Affine.compose]; ring

/-- Two transforms equal as functions are equal as pairs (R117: "take x = 0, then x = 1"). -/
theorem Affine.ext_app (t u : Affine) (h : ∀ x, t.app x = u.app x) : t = u := by
  have hc := h 0
  have hm := h 1
  simp only [Affine.app, mul_zero, zero_add, mul_one] at hc hm
  cases t; cases u
  simp only at hc hm
  subst hc
  simpa using hm

theorem Affine.app_base (inc x : U128) : (Affine.base inc).app x = lcgStep x inc := by
  simp only [Affine.app, Affine.base, lcgStep]; ring

/-- The loop of R109 applies the step `n` times and then the accumulator. -/
theorem affPowLoop_app (rounds : Nat) (acc cur : Affine) (n : Nat) (h : n < 2 ^ rounds) (x : U128) :
    (affPowLoop rounds acc cur n).app x = acc.app (cur.app^[n] x) := by
  induction rounds generalizing acc cur n with
  | zero => obtain rfl : n = 0 := by simpa using h
            rfl
  | succ r ih =>
    unfold affPowLoop
    split
    · next h0 => subst h0; rfl
    · have hd : n / 2 < 2 ^ r := by rw [pow_succ] at h; omega
      have sq : (Affine.compose cur cur).app = cur.app^[2] := by
        funext y; simp [Affine.app_compose]
      rw [ih _ _ _ hd, sq, ← Function.iterate_mul]
      split
      · next h1 =>
        rw [Affine.app_compose, ← Function.iterate_succ_apply' cur.app]
        congr 2; omega
      · congr 2; omega

/-- `AffPow(T, n)` is the n-fold composition of T (R109). -/
theorem Affine.pow_app (t : Affine) (n : Nat) (x : U128) : (t.pow n).app x = t.app^[n] x := by
  rw [Affine.pow, affPowLoop_app _ _ _ _ Nat.lt_log2_self, Affine.app_identity]

theorem Affine.pow_add_app (t : Affine) (a b : Nat) (x : U128) : (t.pow (a + b)).app x = (t.pow a).app ((t.pow b).app x) := by
  simp only [Affine.pow_app, Function.iterate_add_apply]

theorem Affine.base_pow_app (inc : U128) (n : Nat) (x : U128) : ((Affine.base inc).pow n).app x = forward inc n x := by
  rw [Affine.pow_app, forward, show (Affine.base inc).app = fun y => lcgStep y inc from funext (Affine.app_base inc)]

/-- `InvBase` undoes one forward step (R110). -/
theorem Affine.invBase_step (inc x : U128) : (Affine.invBase inc).app (lcgStep x inc) = x := by
  have : (Affine.invBase inc).app (lcgStep x inc) = (lcgStep x inc - inc) * lcgMulInv := by
    simp only [Affine.app, Affine.invBase]; ring
  rw [this, lcgStep_back]

/-- One forward step undoes `InvBase` (R110). -/
theorem Affine.step_invBase (inc x : U128) : lcgStep ((Affine.invBase inc).app x) inc = x := by
  have : lcgStep ((Affine.invBase inc).app x) inc = (x - inc) * (lcgMulInv * lcgMul) + inc := by
    simp only [Affine.app, Affine.invBase, lcgStep]; ring
  rw [this, lcgMulInv_mul_lcgMul]; simp

@[simp] theorem forward_zero (inc x : U128) : forward inc 0 x = x := rfl

theorem forward_succ (inc : U128) (n : Nat) (x : U128) : forward inc (n + 1) x = lcgStep (forward inc n x) inc :=
  Function.iterate_succ_apply' _ _ _

theorem forward_succ' (inc : U128) (n : Nat) (x : U128) : forward inc (n + 1) x = forward inc n (lcgStep x inc) :=
  Function.iterate_succ_apply _ _ _

theorem forward_add (inc : U128) (m n : Nat) (x : U128) : forward inc (m + n) x = forward inc m (forward inc n x) :=
  Function.iterate_add_apply _ _ _ _

theorem forward_injective (inc : U128) (n : Nat) : Function.Injective (forward inc n) :=
  (lcgStep_injective inc).iterate n

/-- `n` backward steps are undone by `n` forward steps. -/
theorem Affine.forward_invBase_pow (inc : U128) (n : Nat) (x : U128) :
    forward inc n (((Affine.invBase inc).pow n).app x) = x := by
  rw [Affine.pow_app]
  induction n generalizing x with
  | zero => rfl
  | succ n ih => rw [forward_succ, Function.iterate_succ_apply, ih, Affine.step_invBase]

/-- `moveState` moves by `d` raw steps (R113, R172). -/
theorem moveState_reaches (inc : U128) (d : Int) (st : U128) : Reaches inc st d (moveState inc d st) := by
  unfold Reaches moveState advanceBase
  split
  · have h : d.toNat = d.natAbs := by omega
    rw [Affine.base_pow_app, h, show (-d).toNat = 0 by omega, forward_zero]
  · have h : (-d).toNat = d.natAbs := by omega
    rw [h, Affine.forward_invBase_pow, show d.toNat = 0 by omega, forward_zero]

/-- Where a state lies is determined by the start and the number of steps. -/
theorem Reaches.unique {inc a b c : U128} {p : Int} (h : Reaches inc a p b) (h' : Reaches inc a p c) : b = c :=
  forward_injective inc _ (h.symm.trans h')

theorem Reaches.zero (inc a : U128) : Reaches inc a 0 a := rfl

theorem Reaches.symm {inc a b : U128} {p : Int} (h : Reaches inc a p b) : Reaches inc b (-p) a := by
  unfold Reaches at *; rw [neg_neg]; exact Eq.symm h

/-- Moving by `p` and then by `q` is moving by `p + q` (R118). -/
theorem Reaches.trans {inc a b c : U128} {p q : Int} (h : Reaches inc a p b) (h' : Reaches inc b q c) :
    Reaches inc a (p + q) c := by
  unfold Reaches at *
  have key : forward inc (q.toNat + p.toNat) a = forward inc ((-p).toNat + (-q).toNat) c := by
    rw [forward_add, h, ← forward_add, Nat.add_comm, forward_add, h', ← forward_add]
  apply forward_injective inc (q.toNat + p.toNat - (p + q).toNat)
  rw [← forward_add, ← forward_add,
    show q.toNat + p.toNat - (p + q).toNat + (p + q).toNat = q.toNat + p.toNat by omega, key]
  congr 1; omega

theorem reaches_iff_moveState {inc a b : U128} {p : Int} : Reaches inc a p b ↔ b = moveState inc p a :=
  ⟨fun h => h.unique (moveState_reaches inc p a), fun h => h ▸ moveState_reaches inc p a⟩

end Sys2Proof.Machine
end

