-- ==== Sys2Proof/Laws/Generator.lean ====
section
/-! SUPPORT. What the generator functions of 40_arith.md sections 5 and 6 can do: one lemma per outcome of each. -/

namespace Sys2Proof.Machine

/-! ### PosAdd -/

theorem posAdd_ok (p : U256) (d : Int) (h1 : posMin ≤ p.toInt + d) (h2 : p.toInt + d ≤ posMax) :
    posAdd p d = .ok (BitVec.ofInt 256 (p.toInt + d)) := by
  unfold posAdd posMin posMax at *
  rw [if_neg]; omega

theorem posAdd_error (p : U256) (d : Int) (h : p.toInt + d < posMin ∨ posMax < p.toInt + d) :
    posAdd p d = .error .posRange := by
  unfold posAdd posMin posMax at *
  rw [if_pos]; omega

theorem toInt_ofInt_pos (r : Int) (h1 : posMin ≤ r) (h2 : r ≤ posMax) : (BitVec.ofInt 256 r).toInt = r := by
  unfold posMin posMax at *
  rw [BitVec.toInt_ofInt]
  apply Int.bmod_eq_of_le <;> omega

theorem pos_range (p : U256) : posMin ≤ p.toInt ∧ p.toInt ≤ posMax := by
  have h1 := BitVec.le_toInt p
  have h2 := BitVec.toInt_lt (x := p)
  unfold posMin posMax
  omega

/-- Everything a successful `PosAdd` says. -/
theorem posAdd_eq_ok {p q : U256} {d : Int} (h : posAdd p d = .ok q) : q.toInt = p.toInt + d := by
  by_cases hr : posMin ≤ p.toInt + d ∧ p.toInt + d ≤ posMax
  · rw [posAdd_ok p d hr.1 hr.2] at h
    obtain rfl : BitVec.ofInt 256 (p.toInt + d) = q := by simpa using h
    exact toInt_ofInt_pos _ hr.1 hr.2
  · rw [posAdd_error p d (by omega)] at h; cases h

/-- `PosAdd` raises only E_POS_RANGE. -/
theorem posAdd_eq_error {p : U256} {d : Int} {c : ECode} (h : posAdd p d = .error c) : c = .posRange := by
  simp only [posAdd] at h
  split at h <;> cases h
  rfl

/-! ### RawDraw -/

/-- The generator after `k` raw draws. -/
def afterDraws (g : Gen) (k : Nat) : Gen :=
  { g with state := forward g.inc k g.state, pos := BitVec.ofInt 256 (g.pos.toInt + k) }

@[simp] theorem afterDraws_inc (g : Gen) (k : Nat) : (afterDraws g k).inc = g.inc := by simp only [afterDraws]
@[simp] theorem afterDraws_state (g : Gen) (k : Nat) : (afterDraws g k).state = forward g.inc k g.state := by
  simp only [afterDraws]
@[simp] theorem afterDraws_srecState (g : Gen) (k : Nat) : (afterDraws g k).srecState = g.srecState := by
  simp only [afterDraws]
@[simp] theorem afterDraws_srecInc (g : Gen) (k : Nat) : (afterDraws g k).srecInc = g.srecInc := by simp only [afterDraws]
@[simp] theorem afterDraws_seeded (g : Gen) (k : Nat) : (afterDraws g k).seeded = g.seeded := by simp only [afterDraws]

theorem afterDraws_pos (g : Gen) (k : Nat) (h : g.pos.toInt + k ≤ posMax) :
    (afterDraws g k).pos.toInt = g.pos.toInt + k := by
  have hr := pos_range g.pos
  simp only [afterDraws]
  exact toInt_ofInt_pos _ (by omega) h

/-- The position after `k` draws as a sum of bit vectors. -/
theorem afterDraws_eq (g : Gen) (k : Nat) :
    afterDraws g k = { g with state := forward g.inc k g.state, pos := g.pos + BitVec.ofNat 256 k } := by
  unfold afterDraws; rw [BitVec.ofInt_add]; simp

/-- Drawing `m` and then `n` values is drawing `m + n`. -/
theorem afterDraws_add (g : Gen) (m n : Nat) (h : g.pos.toInt + m ≤ posMax) :
    afterDraws (afterDraws g m) n = afterDraws g (m + n) := by
  have hk := afterDraws_pos g m h
  simp only [afterDraws] at hk
  simp only [afterDraws, hk]
  rw [← forward_add, Nat.add_comm n m]
  push_cast
  rw [add_assoc]

theorem afterDraws_zero (g : Gen) : afterDraws g 0 = g := by
  simp [afterDraws]

theorem rawDraw_eq_ok {g g' : Gen} {x : Word} (h : rawDraw g = .ok (x, g')) :
    x = dxsmPermute g.state ∧ g'.state = lcgStep g.state g.inc ∧ g'.pos.toInt = g.pos.toInt + 1 ∧ g'.inc = g.inc ∧
      g'.srecState = g.srecState ∧ g'.srecInc = g.srecInc ∧ g'.seeded = g.seeded := by
  unfold rawDraw at h
  split at h
  · cases h
  · next pos hp => cases h; exact ⟨rfl, rfl, posAdd_eq_ok hp, rfl, rfl, rfl, rfl⟩

theorem rawDraw_eq_error {g : Gen} {c : ECode} (h : rawDraw g = .error c) : c = .posRange := by
  unfold rawDraw at h
  split at h
  · next hp => cases h; exact posAdd_eq_error hp
  · cases h

/-- The `k`-th draw, as long as the position has room. -/
theorem rawDraw_afterDraws (g : Gen) (k : Nat) (h : g.pos.toInt + (k + 1) ≤ posMax) :
    rawDraw (afterDraws g k) = .ok (nthDraw g k, afterDraws g (k + 1)) := by
  have hr := pos_range g.pos
  have hk : (afterDraws g k).pos.toInt = g.pos.toInt + k := toInt_ofInt_pos _ (by omega) (by omega)
  unfold rawDraw
  rw [posAdd_ok _ _ (by omega) (by omega), hk]
  simp [afterDraws, nthDraw, forward_succ, add_assoc]

theorem rawDraw_afterDraws_error (g : Gen) (k : Nat) (h : g.pos.toInt + k = posMax) :
    rawDraw (afterDraws g k) = .error .posRange := by
  have hr := pos_range g.pos
  have hk : (afterDraws g k).pos.toInt = g.pos.toInt + k := toInt_ofInt_pos _ (by omega) (by omega)
  unfold rawDraw
  rw [posAdd_error _ _ (by omega)]

/-! ### AdvanceFn -/

/-- Everything a successful `AdvanceFn` says: the state `d` raw steps away, the position `d` further, the rest unchanged. -/
theorem advanceFn_eq_ok {g g' : Gen} {d : Int} (h : advanceFn g d = .ok g') :
    Reaches g.inc g.state d g'.state ∧ g'.pos.toInt = g.pos.toInt + d ∧ g'.inc = g.inc ∧ g'.srecState = g.srecState ∧
      g'.srecInc = g.srecInc ∧ g'.seeded = g.seeded := by
  unfold advanceFn at h
  split at h
  · next hd => cases h; subst hd; exact ⟨rfl, by omega, rfl, rfl, rfl, rfl⟩
  · split at h
    · cases h
    · next pos hp => cases h; exact ⟨moveState_reaches _ _ _, posAdd_eq_ok hp, rfl, rfl, rfl, rfl⟩

theorem advanceFn_eq_error {g : Gen} {d : Int} {c : ECode} (h : advanceFn g d = .error c) : c = .posRange := by
  unfold advanceFn at h
  split at h
  · cases h
  · split at h
    · next hp => cases h; exact posAdd_eq_error hp
    · cases h

/-- `AdvanceFn` succeeds whenever the new position is in range. -/
theorem advanceFn_ok (g : Gen) (d : Int) (h1 : posMin ≤ g.pos.toInt + d) (h2 : g.pos.toInt + d ≤ posMax) :
    advanceFn g d = .ok { g with state := moveState g.inc d g.state, pos := BitVec.ofInt 256 (g.pos.toInt + d) } := by
  unfold advanceFn
  split
  · next hd =>
    subst hd
    have : moveState g.inc 0 g.state = g.state := (reaches_iff_moveState.mp (Reaches.zero g.inc g.state)).symm
    simp [this]
  · rw [posAdd_ok _ _ h1 h2]

theorem advanceFn_error (g : Gen) (d : Int) (h : g.pos.toInt + d < posMin ∨ posMax < g.pos.toInt + d) :
    advanceFn g d = .error .posRange := by
  have hr := pos_range g.pos
  unfold advanceFn
  rw [if_neg (by omega), posAdd_error _ _ h]

/-! ### SeedInit and IMPORT -/

@[simp] theorem seedInit_seeded (ss si : U128) : (seedInit ss si).seeded = true := rfl
@[simp] theorem seedInit_inc (ss si : U128) : (seedInit ss si).inc = si ||| 1 := rfl
@[simp] theorem seedInit_pos (ss si : U128) : (seedInit ss si).pos = 0 := rfl
@[simp] theorem seedInit_srecState (ss si : U128) : (seedInit ss si).srecState = ss := rfl
@[simp] theorem seedInit_srecInc (ss si : U128) : (seedInit ss si).srecInc = si ||| 1 := rfl

/-- Seeding from a record's own increment keeps it. -/
theorem seedInit_of_odd (ss si : U128) (h : si.getLsbD 0 = true) :
    seedInit ss si = { state := lcgStep (ss + si) si, inc := si, pos := 0, srecState := ss, srecInc := si, seeded := true } := by
  simp only [seedInit, or_one_of_odd si h]

/-- The derived record's seeding and `p` draws reach the imported state (R172). -/
theorem importGen_reaches (st increment : U128) (p : U256) :
    Reaches (importGen st increment p).inc (importGen st increment p).seedPoint p.toInt st := by
  have hodd : (increment ||| 1).getLsbD 0 = true := or_one_odd increment
  set s0 : U128 := if p.toInt = 0 then st else moveState (increment ||| 1) (-p.toInt) st with hs0
  have hpoint : (importGen st increment p).seedPoint = s0 := by
    simp only [Gen.seedPoint, importGen, seedInit_of_odd _ _ hodd, ← hs0, sub_add_cancel, Affine.step_invBase]
  rw [hpoint]
  show Reaches (increment ||| 1) s0 p.toInt st
  by_cases hp : p.toInt = 0
  · rw [hs0, if_pos hp, hp]; exact Reaches.zero _ _
  · have := (moveState_reaches (increment ||| 1) (-p.toInt) st).symm
    rw [neg_neg] at this
    rwa [hs0, if_neg hp]

/-! ### The Lemire loop -/

theorem lemireThreshold_lt (bd : Nat) (h : 0 < bd) : lemireThreshold bd < bd := Nat.mod_lt _ h

theorem accepts_iff (bd : Nat) (x : Word) : Accepts bd x ↔ ¬ lemireLow bd x < lemireThreshold bd := by
  simp [Accepts, lemireLow, lemireThreshold, lemireProduct]

/-- A first draw whose low part is not below the bound is above the threshold as well, so the loop may be entered either way. -/
theorem lemire_eq_redraw (fuel : Nat) (g : Gen) (bd : Nat) (h : 0 < bd) :
    lemire fuel g bd =
      match rawDraw g with
      | .error code => .failed code
      | .ok (x, g') => lemireRedraw bd (lemireThreshold bd) fuel x g' := by
  unfold lemire
  cases rawDraw g with
  | error c => rfl
  | ok xg =>
    obtain ⟨x, g'⟩ := xg
    have ht := lemireThreshold_lt bd h
    by_cases hl : lemireLow bd x < bd
    · simp only [if_pos hl]
    · have : ¬ lemireLow bd x < lemireThreshold bd := by omega
      cases fuel <;> simp [lemireRedraw, hl, this]

theorem lemireRedraw_done (g : Gen) (bd k : Nat) (hacc : Accepts bd (nthDraw g k)) :
    ∀ (n fuel j : Nat), j + n = k → n ≤ fuel → (∀ i, j ≤ i → i < k → ¬ Accepts bd (nthDraw g i)) →
      g.pos.toInt + (k + 1) ≤ posMax →
      lemireRedraw bd (lemireThreshold bd) fuel (nthDraw g j) (afterDraws g (j + 1)) =
        .done (lemireResult bd (nthDraw g k)) (afterDraws g (k + 1)) := by
  intro n
  induction n with
  | zero =>
    intro fuel j hj _ _ _
    obtain rfl : j = k := by omega
    have := (accepts_iff bd _).mp hacc
    cases fuel <;> simp [lemireRedraw, this]
  | succ n ih =>
    intro fuel j hj hf hno hpos
    cases fuel with
    | zero => omega
    | succ fuel =>
      have hrej : lemireLow bd (nthDraw g j) < lemireThreshold bd := by
        have := hno j le_rfl (by omega)
        rwa [accepts_iff, not_not] at this
      rw [lemireRedraw, if_pos hrej, rawDraw_afterDraws g (j + 1) (by push_cast; omega)]
      exact ih fuel (j + 1) (by omega) (by omega) (fun i h1 h2 => hno i (by omega) h2) hpos

/-- The loop returns the first accepted draw's result (R115). -/
theorem lemire_done (fuel : Nat) (g : Gen) (bd k : Nat) (hbd : 0 < bd) (hk : FirstAccepted g bd k) (hf : k ≤ fuel)
    (hpos : g.pos.toInt + (k + 1) ≤ posMax) :
    lemire fuel g bd = .done (lemireResult bd (nthDraw g k)) (afterDraws g (k + 1)) := by
  have h0 := rawDraw_afterDraws g 0 (by push_cast; omega)
  rw [afterDraws_zero] at h0
  rw [lemire_eq_redraw _ _ _ hbd, h0]
  exact lemireRedraw_done g bd k hk.1 k fuel 0 (by omega) hf (fun i _ h => hk.2 i h) hpos

theorem lemireRedraw_failed (g : Gen) (bd k : Nat) (hpos : g.pos.toInt + k = posMax) :
    ∀ (n fuel j : Nat), j + 1 + n = k → n < fuel → (∀ i, j ≤ i → i < k → ¬ Accepts bd (nthDraw g i)) →
      lemireRedraw bd (lemireThreshold bd) fuel (nthDraw g j) (afterDraws g (j + 1)) = .failed .posRange := by
  intro n
  induction n with
  | zero =>
    intro fuel j hj hf hno
    obtain ⟨fuel, rfl⟩ : ∃ f, fuel = f + 1 := ⟨fuel - 1, by omega⟩
    have hrej : lemireLow bd (nthDraw g j) < lemireThreshold bd := by
      have := hno j le_rfl (by omega)
      rwa [accepts_iff, not_not] at this
    rw [lemireRedraw, if_pos hrej, rawDraw_afterDraws_error g (j + 1) (by push_cast; omega)]
  | succ n ih =>
    intro fuel j hj hf hno
    obtain ⟨fuel, rfl⟩ : ∃ f, fuel = f + 1 := ⟨fuel - 1, by omega⟩
    have hrej : lemireLow bd (nthDraw g j) < lemireThreshold bd := by
      have := hno j le_rfl (by omega)
      rwa [accepts_iff, not_not] at this
    rw [lemireRedraw, if_pos hrej, rawDraw_afterDraws g (j + 1) (by push_cast; omega)]
    exact ih fuel (j + 1) (by omega) (by omega) (fun i h1 h2 => hno i (by omega) h2)

/-- The loop fails where a draw would take the position past its range before any draw is accepted (R200). -/
theorem lemire_failed (fuel : Nat) (g : Gen) (bd k : Nat) (hbd : 0 < bd) (hk : NoneAcceptedBefore g bd k) (hf : k ≤ fuel)
    (hpos : g.pos.toInt + k = posMax) : lemire fuel g bd = .failed .posRange := by
  rw [lemire_eq_redraw _ _ _ hbd]
  cases k with
  | zero =>
    have h0 := rawDraw_afterDraws_error g 0 (by simpa using hpos)
    rw [afterDraws_zero] at h0
    rw [h0]
  | succ k =>
    have h0 := rawDraw_afterDraws g 0 (by push_cast at *; omega)
    rw [afterDraws_zero] at h0
    rw [h0]
    exact lemireRedraw_failed g bd (k + 1) hpos k fuel 0 (by omega) (by omega) (fun i _ h => hk i h)

theorem lemireRedraw_unfinished (g : Gen) (bd : Nat) :
    ∀ (fuel j : Nat), (∀ i, j ≤ i → i ≤ j + fuel → ¬ Accepts bd (nthDraw g i)) →
      g.pos.toInt + (j + fuel + 1) ≤ posMax →
      lemireRedraw bd (lemireThreshold bd) fuel (nthDraw g j) (afterDraws g (j + 1)) = .unfinished := by
  intro fuel
  induction fuel with
  | zero =>
    intro j hno _
    have hrej : lemireLow bd (nthDraw g j) < lemireThreshold bd := by
      have := hno j le_rfl (by omega)
      rwa [accepts_iff, not_not] at this
    simp [lemireRedraw, hrej]
  | succ fuel ih =>
    intro j hno hpos
    have hrej : lemireLow bd (nthDraw g j) < lemireThreshold bd := by
      have := hno j le_rfl (by omega)
      rwa [accepts_iff, not_not] at this
    rw [lemireRedraw, if_pos hrej, rawDraw_afterDraws g (j + 1) (by push_cast at *; omega)]
    exact ih (j + 1) (fun i h1 h2 => hno i (by omega) (by omega)) (by push_cast at *; omega)

/-- Out of fuel the command is "not completed" (R202). -/
theorem lemire_unfinished (fuel : Nat) (g : Gen) (bd : Nat) (hbd : 0 < bd) (hk : NoneAcceptedBefore g bd (fuel + 1))
    (hpos : g.pos.toInt + (fuel + 1) ≤ posMax) : lemire fuel g bd = .unfinished := by
  have h0 := rawDraw_afterDraws g 0 (by push_cast at *; omega)
  rw [afterDraws_zero] at h0
  rw [lemire_eq_redraw _ _ _ hbd, h0]
  exact lemireRedraw_unfinished g bd fuel 0 (fun i _ h => hk i (by omega)) (by push_cast at *; omega)

/-- What every finished loop leaves, whichever draw was accepted: some number of draws was taken, and nothing but the state and
the position changed. -/
theorem lemireRedraw_eq_done {bd t fuel : Nat} {x r : Word} {g g' : Gen} (h : lemireRedraw bd t fuel x g = .done r g') :
    (∃ y, r = lemireResult bd y) ∧ (∃ k : Nat, g'.state = forward g.inc k g.state ∧ g'.pos.toInt = g.pos.toInt + k) ∧
      g'.inc = g.inc ∧ g'.srecState = g.srecState ∧ g'.srecInc = g.srecInc ∧ g'.seeded = g.seeded := by
  induction fuel generalizing x g with
  | zero =>
    unfold lemireRedraw at h
    split at h <;> cases h
    exact ⟨⟨x, rfl⟩, ⟨0, rfl, by simp⟩, rfl, rfl, rfl, rfl⟩
  | succ fuel ih =>
    unfold lemireRedraw at h
    split at h
    · split at h
      · cases h
      · next x' g'' hd =>
        obtain ⟨_, hs, hp, hi, h1, h2, h3⟩ := rawDraw_eq_ok hd
        obtain ⟨hr, ⟨k, hk, hkp⟩, hi', h1', h2', h3'⟩ := ih h
        refine ⟨hr, ⟨k + 1, ?_, by push_cast; omega⟩, hi'.trans hi, h1'.trans h1, h2'.trans h2, h3'.trans h3⟩
        rw [forward_succ', ← hs, hk, hi]
    · cases h
      exact ⟨⟨x, rfl⟩, ⟨0, rfl, by simp⟩, rfl, rfl, rfl, rfl⟩

theorem lemire_eq_done {bd fuel : Nat} {r : Word} {g g' : Gen} (h : lemire fuel g bd = .done r g') :
    (∃ y, r = lemireResult bd y) ∧ (∃ k : Nat, g'.state = forward g.inc k g.state ∧ g'.pos.toInt = g.pos.toInt + k) ∧
      g'.inc = g.inc ∧ g'.srecState = g.srecState ∧ g'.srecInc = g.srecInc ∧ g'.seeded = g.seeded := by
  unfold lemire at h
  split at h
  · cases h
  · next x g'' hd =>
    obtain ⟨_, hs, hp, hi, h1, h2, h3⟩ := rawDraw_eq_ok hd
    split at h
    · obtain ⟨hr, ⟨k, hk, hkp⟩, hi', h1', h2', h3'⟩ := lemireRedraw_eq_done h
      refine ⟨hr, ⟨k + 1, ?_, by push_cast; omega⟩, hi'.trans hi, h1'.trans h1, h2'.trans h2, h3'.trans h3⟩
      rw [forward_succ', ← hs, hk, hi]
    · cases h
      exact ⟨⟨x, rfl⟩, ⟨1, hs, hp⟩, hi, h1, h2, h3⟩

theorem lemireRedraw_eq_failed {bd t fuel : Nat} {x : Word} {g : Gen} {c : ECode}
    (h : lemireRedraw bd t fuel x g = .failed c) : c = .posRange := by
  induction fuel generalizing x g with
  | zero => unfold lemireRedraw at h; split at h <;> cases h
  | succ fuel ih =>
    unfold lemireRedraw at h
    split at h
    · split at h
      · next hd => cases h; exact rawDraw_eq_error hd
      · exact ih h
    · cases h

theorem lemire_eq_failed {bd fuel : Nat} {g : Gen} {c : ECode} (h : lemire fuel g bd = .failed c) : c = .posRange := by
  unfold lemire at h
  split at h
  · next hd => cases h; exact rawDraw_eq_error hd
  · split at h
    · exact lemireRedraw_eq_failed h
    · cases h

/-- "The result r satisfies 0 <= r < Bd" (R115: m < 2^64 * Bd). -/
theorem lemireResult_lt (bd : Nat) (x : Word) (h0 : 0 < bd) (h : bd ≤ 2 ^ 64) : (lemireResult bd x).toNat < bd := by
  have hx := x.isLt
  have hm : x.toNat * bd < 2 ^ 64 * bd := Nat.mul_lt_mul_of_pos_right hx h0
  have hq : x.toNat * bd / 2 ^ 64 < bd := by
    rw [Nat.div_lt_iff_lt_mul (by norm_num), Nat.mul_comm bd]; exact hm
  rw [lemireResult, lemireProduct, BitVec.toNat_ofNat, Nat.mod_eq_of_lt (by omega)]
  exact hq

end Sys2Proof.Machine
end

