-- ==== Sys2Proof/Laws/State.lean ====
section
/-! SUPPORT. One lemma per field per update of State, true by rfl, so that no later proof unfolds a record update; and the same
for the two register banks. -/

namespace Sys2Proof.Machine

/-! ### success (R212) -/

@[simp] theorem State.succeed_gen (s : State) (g : Gen) (r : Bank) : (s.succeed g r).gen = g := rfl
@[simp] theorem State.succeed_op (s : State) (g : Gen) (r : Bank) : (s.succeed g r).op = s.op := rfl
@[simp] theorem State.succeed_res (s : State) (g : Gen) (r : Bank) : (s.succeed g r).res = r := rfl
@[simp] theorem State.succeed_cmd (s : State) (g : Gen) (r : Bank) : (s.succeed g r).cmd = s.cmd := rfl
@[simp] theorem State.succeed_busy (s : State) (g : Gen) (r : Bank) : (s.succeed g r).busy = false := rfl
@[simp] theorem State.succeed_ecode (s : State) (g : Gen) (r : Bank) : (s.succeed g r).ecode = .ok := rfl
@[simp] theorem State.succeed_ovr (s : State) (g : Gen) (r : Bank) : (s.succeed g r).ovr = s.ovr := rfl
@[simp] theorem State.succeed_ent (s : State) (g : Gen) (r : Bank) : (s.succeed g r).ent = s.ent := rfl
@[simp] theorem State.succeed_jump (s : State) (g : Gen) (r : Bank) : (s.succeed g r).jump = s.jump := rfl
@[simp] theorem State.succeed_reply (s : State) (g : Gen) (r : Bank) : (s.succeed g r).reply = s.reply := rfl
@[simp] theorem State.succeed_schedule (s : State) (g : Gen) (r : Bank) : (s.succeed g r).schedule = s.schedule := rfl
@[simp] theorem State.succeed_entropy (s : State) (g : Gen) (r : Bank) : (s.succeed g r).entropy = s.entropy := rfl
@[simp] theorem State.succeed_entropyUses (s : State) (g : Gen) (r : Bank) : (s.succeed g r).entropyUses = s.entropyUses := rfl
@[simp] theorem State.succeed_waited (s : State) (g : Gen) (r : Bank) : (s.succeed g r).waited = 0 := rfl

/-! ### failure (R213) -/

@[simp] theorem State.fail_gen (s : State) (c : ECode) : (s.fail c).gen = s.gen := rfl
@[simp] theorem State.fail_op (s : State) (c : ECode) : (s.fail c).op = s.op := rfl
@[simp] theorem State.fail_res (s : State) (c : ECode) : (s.fail c).res = s.res := rfl
@[simp] theorem State.fail_cmd (s : State) (c : ECode) : (s.fail c).cmd = s.cmd := rfl
@[simp] theorem State.fail_busy (s : State) (c : ECode) : (s.fail c).busy = false := rfl
@[simp] theorem State.fail_ecode (s : State) (c : ECode) : (s.fail c).ecode = c := rfl
@[simp] theorem State.fail_ovr (s : State) (c : ECode) : (s.fail c).ovr = s.ovr := rfl
@[simp] theorem State.fail_ent (s : State) (c : ECode) : (s.fail c).ent = s.ent := rfl
@[simp] theorem State.fail_jump (s : State) (c : ECode) : (s.fail c).jump = s.jump := rfl
@[simp] theorem State.fail_reply (s : State) (c : ECode) : (s.fail c).reply = s.reply := rfl
@[simp] theorem State.fail_schedule (s : State) (c : ECode) : (s.fail c).schedule = s.schedule := rfl
@[simp] theorem State.fail_entropy (s : State) (c : ECode) : (s.fail c).entropy = s.entropy := rfl
@[simp] theorem State.fail_entropyUses (s : State) (c : ECode) : (s.fail c).entropyUses = s.entropyUses := rfl
@[simp] theorem State.fail_waited (s : State) (c : ECode) : (s.fail c).waited = 0 := rfl

/-! ### a turn that does not complete (R202) -/

@[simp] theorem State.stillPending_gen (s : State) : (s.stillPending).gen = s.gen := rfl
@[simp] theorem State.stillPending_op (s : State) : (s.stillPending).op = s.op := rfl
@[simp] theorem State.stillPending_res (s : State) : (s.stillPending).res = s.res := rfl
@[simp] theorem State.stillPending_cmd (s : State) : (s.stillPending).cmd = s.cmd := rfl
@[simp] theorem State.stillPending_busy (s : State) : (s.stillPending).busy = s.busy := rfl
@[simp] theorem State.stillPending_ecode (s : State) : (s.stillPending).ecode = s.ecode := rfl
@[simp] theorem State.stillPending_ovr (s : State) : (s.stillPending).ovr = s.ovr := rfl
@[simp] theorem State.stillPending_ent (s : State) : (s.stillPending).ent = s.ent := rfl
@[simp] theorem State.stillPending_jump (s : State) : (s.stillPending).jump = s.jump := rfl
@[simp] theorem State.stillPending_reply (s : State) : (s.stillPending).reply = s.reply := rfl
@[simp] theorem State.stillPending_schedule (s : State) : (s.stillPending).schedule = s.schedule := rfl
@[simp] theorem State.stillPending_entropy (s : State) : (s.stillPending).entropy = s.entropy := rfl
@[simp] theorem State.stillPending_entropyUses (s : State) : (s.stillPending).entropyUses = s.entropyUses := rfl
@[simp] theorem State.stillPending_waited (s : State) : (s.stillPending).waited = s.waited + 1 := rfl

/-! ### an entropy consultation (R165) -/

@[simp] theorem State.consultEntropy_gen (s : State) : (s.consultEntropy).gen = s.gen := rfl
@[simp] theorem State.consultEntropy_op (s : State) : (s.consultEntropy).op = s.op := rfl
@[simp] theorem State.consultEntropy_res (s : State) : (s.consultEntropy).res = s.res := rfl
@[simp] theorem State.consultEntropy_cmd (s : State) : (s.consultEntropy).cmd = s.cmd := rfl
@[simp] theorem State.consultEntropy_busy (s : State) : (s.consultEntropy).busy = s.busy := rfl
@[simp] theorem State.consultEntropy_ecode (s : State) : (s.consultEntropy).ecode = s.ecode := rfl
@[simp] theorem State.consultEntropy_ovr (s : State) : (s.consultEntropy).ovr = s.ovr := rfl
@[simp] theorem State.consultEntropy_ent (s : State) : (s.consultEntropy).ent = s.ent := rfl
@[simp] theorem State.consultEntropy_jump (s : State) : (s.consultEntropy).jump = s.jump := rfl
@[simp] theorem State.consultEntropy_reply (s : State) : (s.consultEntropy).reply = s.reply := rfl
@[simp] theorem State.consultEntropy_schedule (s : State) : (s.consultEntropy).schedule = s.schedule := rfl
@[simp] theorem State.consultEntropy_entropy (s : State) : (s.consultEntropy).entropy = Config.entropyAnswer s.entropyUses := rfl
@[simp] theorem State.consultEntropy_entropyUses (s : State) : (s.consultEntropy).entropyUses = s.entropyUses + 1 := rfl
@[simp] theorem State.consultEntropy_waited (s : State) : (s.consultEntropy).waited = s.waited := rfl

/-! ### an accepted CMD write (R211) -/

@[simp] theorem State.issue_gen (s : State) (w : Word) : (s.issue w).gen = s.gen := rfl
@[simp] theorem State.issue_op (s : State) (w : Word) : (s.issue w).op = s.op := rfl
@[simp] theorem State.issue_res (s : State) (w : Word) : (s.issue w).res = s.res := rfl
@[simp] theorem State.issue_cmd (s : State) (w : Word) : (s.issue w).cmd = w := rfl
@[simp] theorem State.issue_busy (s : State) (w : Word) : (s.issue w).busy = true := rfl
@[simp] theorem State.issue_ecode (s : State) (w : Word) : (s.issue w).ecode = s.ecode := rfl
@[simp] theorem State.issue_ovr (s : State) (w : Word) : (s.issue w).ovr = s.ovr := rfl
@[simp] theorem State.issue_ent (s : State) (w : Word) : (s.issue w).ent = s.ent := rfl
@[simp] theorem State.issue_jump (s : State) (w : Word) : (s.issue w).jump = s.jump := rfl
@[simp] theorem State.issue_reply (s : State) (w : Word) : (s.issue w).reply = s.reply := rfl
@[simp] theorem State.issue_schedule (s : State) (w : Word) : (s.issue w).schedule = s.schedule := rfl
@[simp] theorem State.issue_entropy (s : State) (w : Word) : (s.issue w).entropy = s.entropy := rfl
@[simp] theorem State.issue_entropyUses (s : State) (w : Word) : (s.issue w).entropyUses = s.entropyUses := rfl
@[simp] theorem State.issue_waited (s : State) (w : Word) : (s.issue w).waited = 0 := rfl

/-! ### a dropped write (R215) -/

@[simp] theorem State.dropWrite_gen (s : State) : (s.dropWrite).gen = s.gen := rfl
@[simp] theorem State.dropWrite_op (s : State) : (s.dropWrite).op = s.op := rfl
@[simp] theorem State.dropWrite_res (s : State) : (s.dropWrite).res = s.res := rfl
@[simp] theorem State.dropWrite_cmd (s : State) : (s.dropWrite).cmd = s.cmd := rfl
@[simp] theorem State.dropWrite_busy (s : State) : (s.dropWrite).busy = s.busy := rfl
@[simp] theorem State.dropWrite_ecode (s : State) : (s.dropWrite).ecode = s.ecode := rfl
@[simp] theorem State.dropWrite_ovr (s : State) : (s.dropWrite).ovr = true := rfl
@[simp] theorem State.dropWrite_ent (s : State) : (s.dropWrite).ent = s.ent := rfl
@[simp] theorem State.dropWrite_jump (s : State) : (s.dropWrite).jump = s.jump := rfl
@[simp] theorem State.dropWrite_reply (s : State) : (s.dropWrite).reply = s.reply := rfl
@[simp] theorem State.dropWrite_schedule (s : State) : (s.dropWrite).schedule = s.schedule := rfl
@[simp] theorem State.dropWrite_entropy (s : State) : (s.dropWrite).entropy = s.entropy := rfl
@[simp] theorem State.dropWrite_entropyUses (s : State) : (s.dropWrite).entropyUses = s.entropyUses := rfl
@[simp] theorem State.dropWrite_waited (s : State) : (s.dropWrite).waited = s.waited := rfl

/-! ### hardware reset (R250) -/

@[simp] theorem State.hardwareReset_gen (s : State) : (s.hardwareReset).gen = Gen.reset := rfl
@[simp] theorem State.hardwareReset_op (s : State) : (s.hardwareReset).op = Bank.zero := rfl
@[simp] theorem State.hardwareReset_res (s : State) : (s.hardwareReset).res = Bank.zero := rfl
@[simp] theorem State.hardwareReset_cmd (s : State) : (s.hardwareReset).cmd = 0 := rfl
@[simp] theorem State.hardwareReset_busy (s : State) : (s.hardwareReset).busy = false := rfl
@[simp] theorem State.hardwareReset_ecode (s : State) : (s.hardwareReset).ecode = .ok := rfl
@[simp] theorem State.hardwareReset_ovr (s : State) : (s.hardwareReset).ovr = false := rfl
@[simp] theorem State.hardwareReset_ent (s : State) : (s.hardwareReset).ent = s.ent := rfl
@[simp] theorem State.hardwareReset_jump (s : State) : (s.hardwareReset).jump = s.jump := rfl
@[simp] theorem State.hardwareReset_reply (s : State) : (s.hardwareReset).reply = .none := rfl
@[simp] theorem State.hardwareReset_schedule (s : State) : (s.hardwareReset).schedule = s.schedule := rfl
@[simp] theorem State.hardwareReset_entropy (s : State) : (s.hardwareReset).entropy = Config.entropyAnswer s.entropyUses := rfl
@[simp] theorem State.hardwareReset_entropyUses (s : State) : (s.hardwareReset).entropyUses = s.entropyUses + 1 := rfl
@[simp] theorem State.hardwareReset_waited (s : State) : (s.hardwareReset).waited = 0 := rfl

/-! ### a latched command with nothing scheduled before it -/

@[simp] theorem State.withCommand_gen (s : State) (w : Word) : (s.withCommand w).gen = s.gen := rfl
@[simp] theorem State.withCommand_op (s : State) (w : Word) : (s.withCommand w).op = s.op := rfl
@[simp] theorem State.withCommand_res (s : State) (w : Word) : (s.withCommand w).res = s.res := rfl
@[simp] theorem State.withCommand_cmd (s : State) (w : Word) : (s.withCommand w).cmd = w := rfl
@[simp] theorem State.withCommand_busy (s : State) (w : Word) : (s.withCommand w).busy = true := rfl
@[simp] theorem State.withCommand_ecode (s : State) (w : Word) : (s.withCommand w).ecode = s.ecode := rfl
@[simp] theorem State.withCommand_ovr (s : State) (w : Word) : (s.withCommand w).ovr = s.ovr := rfl
@[simp] theorem State.withCommand_ent (s : State) (w : Word) : (s.withCommand w).ent = s.ent := rfl
@[simp] theorem State.withCommand_jump (s : State) (w : Word) : (s.withCommand w).jump = s.jump := rfl
@[simp] theorem State.withCommand_reply (s : State) (w : Word) : (s.withCommand w).reply = s.reply := rfl
@[simp] theorem State.withCommand_schedule (s : State) (w : Word) : (s.withCommand w).schedule = [] := rfl
@[simp] theorem State.withCommand_entropy (s : State) (w : Word) : (s.withCommand w).entropy = s.entropy := rfl
@[simp] theorem State.withCommand_entropyUses (s : State) (w : Word) : (s.withCommand w).entropyUses = s.entropyUses := rfl
@[simp] theorem State.withCommand_waited (s : State) (w : Word) : (s.withCommand w).waited = 0 := rfl

/-! ### Commit -/

theorem State.commit_ok_gen (s : State) (g : Gen) (r : Bank) : (s.commit (.ok (g, r))).gen = g := rfl
theorem State.commit_ok_res (s : State) (g : Gen) (r : Bank) : (s.commit (.ok (g, r))).res = r := rfl
theorem State.commit_error_gen (s : State) (c : ECode) : (s.commit (.error c)).gen = s.gen := rfl
@[simp] theorem State.commit_ok (s : State) (g : Gen) (r : Bank) : s.commit (.ok (g, r)) = s.succeed g r := rfl
@[simp] theorem State.commit_error (s : State) (c : ECode) : s.commit (.error c) = s.fail c := rfl
theorem State.ifSeeded_of_seeded (s : State) (x : Except ECode (Gen × Bank)) (h : s.gen.seeded = true) :
    s.ifSeeded x = x := by simp [State.ifSeeded, h]
theorem State.ifSeeded_of_unseeded (s : State) (x : Except ECode (Gen × Bank)) (h : s.gen.seeded = false) :
    s.ifSeeded x = .error .unseeded := by simp [State.ifSeeded, h]

/-! ### The banks -/

theorem Bank.get_set_same (b : Bank) (i : Fin 8) (v : Word) : (b.set i v).get i = v := by
  fin_cases i <;> rfl

theorem Bank.get_set_ne (b : Bank) (i j : Fin 8) (v : Word) (h : j ≠ i) : (b.set i v).get j = b.get j := by
  fin_cases i <;> fin_cases j <;> first | rfl | exact absurd rfl h

@[simp] theorem Bank.zero_get (i : Fin 8) : Bank.zero.get i = 0 := by
  fin_cases i <;> rfl

end Sys2Proof.Machine
end

