-- ==== Sys2Proof/Laws/Exec.lean ====
section
/-! SUPPORT. What a command, the engine's turn and a host access can do, said once. -/

namespace Sys2Proof.Machine

/-- How a command's turn ends: it stays pending, it fails, or it succeeds; SEED.ENTROPY may have consulted the source. -/
inductive Ends (i : Instr) (s t : State) : Prop where
  /-- Not completed (R202, R165). -/
  | pending (h : i = .bounded ∨ i = .seedEntropy) (ht : t = s.stillPending)
  /-- Failed (R213). -/
  | failed (e : State) (c : ECode) (he : e = s ∨ (i = .seedEntropy ∧ e = s.consultEntropy)) (hc : c ≠ .ok) (ht : t = e.fail c)
  /-- Succeeded (R212). -/
  | succeeded (e : State) (g : Gen) (r : Bank) (he : e = s ∨ (i = .seedEntropy ∧ e = s.consultEntropy))
      (ht : t = e.succeed g r)

/-- `commit` fails with a code other than 0 or succeeds, as long as no error carries the code 0. -/
theorem commit_ends (i : Instr) (s e : State) (x : Except ECode (Gen × Bank))
    (he : e = s ∨ (i = .seedEntropy ∧ e = s.consultEntropy)) (hx : x ≠ .error .ok) : Ends i s (e.commit x) := by
  cases x with
  | error c => exact .failed e c he (fun h => hx (by rw [h])) rfl
  | ok gr => exact .succeeded e gr.1 gr.2 he rfl

theorem ifSeeded_ne (s : State) (x : Except ECode (Gen × Bank)) (h : x ≠ .error .ok) : s.ifSeeded x ≠ .error .ok := by
  unfold State.ifSeeded; split
  · exact h
  · simp

/-- A success passed on is a success and an error is passed on. -/
theorem map_eq_ok {α β : Type} {x : Except ECode α} {f : α → β} {b : β} (h : x.map f = .ok b) : ∃ a, x = .ok a ∧ f a = b := by
  cases x with
  | error c => cases h
  | ok a => exact ⟨a, rfl, by simpa [Except.map] using h⟩

theorem map_ne_ok_code {α β : Type} {x : Except ECode α} {f : α → β} (h : ∀ c, x = .error c → c = .posRange) :
    x.map f ≠ .error .ok := by
  cases x with
  | error c => rw [h c rfl]; simp [Except.map]
  | ok a => simp [Except.map]

theorem drawInto_ne (s : State) (f : Word → Word) : drawInto s f ≠ .error .ok :=
  map_ne_ok_code fun _ h => rawDraw_eq_error h

theorem advance_ne (g : Gen) (d : Int) (f : Gen → Gen × Bank) : (advanceFn g d).map f ≠ .error .ok :=
  map_ne_ok_code fun _ h => advanceFn_eq_error h

/-- Every command answers a next state (no fault, no refusal). -/
theorem exec_answers_next (i : Instr) (s : State) : ∃ t, exec i s = .next t := by
  cases i <;> exact ⟨_, rfl⟩

/-- Everything a command's turn can do to the state as a whole. -/
theorem exec_ends {i : Instr} {s t : State} (h : exec i s = .next t) : Ends i s t := by
  cases i <;> simp only [exec] at h
  case nop => cases h; exact commit_ends _ _ _ _ (.inl rfl) (by simp)
  case seedPair => cases h; exact commit_ends _ _ _ _ (.inl rfl) (by simp)
  case seedState => cases h; exact commit_ends _ _ _ _ (.inl rfl) (by simp)
  case seedEntropy =>
    unfold execSeedEntropy at h
    split at h
    · split at h <;> cases h
      · exact commit_ends _ _ _ _ (.inr ⟨rfl, rfl⟩) (by simp)
      · exact commit_ends _ _ _ _ (.inr ⟨rfl, rfl⟩) (by simp)
      · exact .pending (.inr rfl) rfl
    · cases h; exact commit_ends _ _ _ _ (.inl rfl) (by simp)
  case next64 => cases h; exact commit_ends _ _ _ _ (.inl rfl) (ifSeeded_ne _ _ (drawInto_ne _ _))
  case nextF64 => cases h; exact commit_ends _ _ _ _ (.inl rfl) (ifSeeded_ne _ _ (drawInto_ne _ _))
  case bounded =>
    unfold execBounded at h
    split at h
    · split at h
      · cases h; exact commit_ends _ _ _ _ (.inl rfl) (by simp)
      · split at h
        · cases h; exact commit_ends _ _ _ _ (.inl rfl) (by simp)
        · next hl => cases h; exact commit_ends _ _ _ _ (.inl rfl) (by rw [lemire_eq_failed hl]; simp)
        · cases h; exact .pending (.inl rfl) rfl
    · cases h; exact commit_ends _ _ _ _ (.inl rfl) (by simp)
  case advance => cases h; exact commit_ends _ _ _ _ (.inl rfl) (ifSeeded_ne _ _ (advance_ne _ _ _))
  case seek => cases h; exact commit_ends _ _ _ _ (.inl rfl) (ifSeeded_ne _ _ (advance_ne _ _ _))
  case reset => cases h; exact commit_ends _ _ _ _ (.inl rfl) (ifSeeded_ne _ _ (by simp))
  case jumped => cases h; exact commit_ends _ _ _ _ (.inl rfl) (ifSeeded_ne _ _ (advance_ne _ _ _))
  case importRecord => cases h; exact commit_ends _ _ _ _ (.inl rfl) (by simp)
  case inv => cases h; exact commit_ends _ _ _ _ (.inl rfl) (by split <;> simp)
  case affPow => cases h; exact commit_ends _ _ _ _ (.inl rfl) (by simp)
  case affComp => cases h; exact commit_ends _ _ _ _ (.inl rfl) (by simp)
  case dxsm => cases h; exact commit_ends _ _ _ _ (.inl rfl) (by simp)

/-- `g'` is `g` some number of raw steps further or back, nothing but the state and the position changed. -/
def Moved (g g' : Gen) : Prop :=
  ∃ d : Int, Reaches g.inc g.state d g'.state ∧ g'.pos.toInt = g.pos.toInt + d ∧ g'.inc = g.inc ∧
    g'.srecState = g.srecState ∧ g'.srecInc = g.srecInc ∧ g'.seeded = g.seeded

theorem Moved.of_forward {g g' : Gen} {k : Nat} (h1 : g'.state = forward g.inc k g.state) (h2 : g'.pos.toInt = g.pos.toInt + k)
    (h3 : g'.inc = g.inc) (h4 : g'.srecState = g.srecState) (h5 : g'.srecInc = g.srecInc) (h6 : g'.seeded = g.seeded) :
    Moved g g' := by
  refine ⟨k, ?_, h2, h3, h4, h5, h6⟩
  rw [h1]; unfold Reaches; simp

theorem Moved.refl (g : Gen) : Moved g g := ⟨0, Reaches.zero _ _, by omega, rfl, rfl, rfl, rfl⟩

/-- What a command's turn leaves in the generator registers. -/
inductive GenAfter (i : Instr) (s t : State) : Prop where
  /-- Untouched: a unit, JUMPED, NOP, a failure or a command still pending. -/
  | same (h : t.gen = s.gen)
  /-- Seeded by SEED.* (R114). -/
  | seeded (hi : i.seeds = true) (ss si : U128) (h : t.gen = seedInit ss si)
  /-- Loaded by IMPORT (R172). -/
  | imported (hi : i.seeds = true) (a b : U128) (p : U256) (h : t.gen = importGen a b p)
  /-- Moved by a draw or ADVANCE. -/
  | drawn (hi : i = .next64 ∨ i = .nextF64 ∨ i = .bounded ∨ i = .advance) (hs : s.gen.seeded = true) (h : Moved s.gen t.gen)
  /-- Moved from the seed point by SEEK or RESET. -/
  | sought (hi : i = .seek ∨ i = .reset) (hs : s.gen.seeded = true)
      (h : Moved (seedInit s.gen.srecState s.gen.srecInc) t.gen)

theorem commit_gen (s : State) (x : Except ECode (Gen × Bank)) : (s.commit x).gen = s.gen ∨ ∃ g r, x = .ok (g, r) ∧ (s.commit x).gen = g := by
  cases x with
  | error c => left; rfl
  | ok gr => right; exact ⟨gr.1, gr.2, rfl, rfl⟩

theorem ifSeeded_ok {s : State} {x : Except ECode (Gen × Bank)} {y} (h : s.ifSeeded x = .ok y) : s.gen.seeded = true ∧ x = .ok y := by
  unfold State.ifSeeded at h
  split at h
  · next hs => exact ⟨hs, h⟩
  · cases h

theorem drawInto_moved {s : State} {f : Word → Word} {g : Gen} {r : Bank} (h : drawInto s f = .ok (g, r)) : Moved s.gen g := by
  obtain ⟨⟨x, g'⟩, hd, hg⟩ := map_eq_ok h
  obtain ⟨_, a, b, c, d, e, f⟩ := rawDraw_eq_ok hd
  cases hg
  exact Moved.of_forward (k := 1) a b c d e f

/-- Everything a command's turn can do to the generator registers. -/
theorem exec_gen {i : Instr} {s t : State} (h : exec i s = .next t) : GenAfter i s t := by
  cases i <;> simp only [exec] at h
  case nop => cases h; exact .same (by simp)
  case seedPair => cases h; exact .seeded rfl _ _ (by simp; rfl)
  case seedState => cases h; exact .seeded rfl _ _ (by simp; rfl)
  case seedEntropy =>
    unfold execSeedEntropy at h
    split at h
    · split at h <;> cases h
      · exact .seeded rfl _ _ (by simp; rfl)
      · exact .same (by simp)
      · exact .same (by simp)
    · cases h; exact .same (by simp)
  case next64 =>
    cases h
    rcases commit_gen s (s.ifSeeded (drawInto s id)) with h | ⟨g, r, h, e⟩
    · exact .same h
    · exact .drawn (by simp) (ifSeeded_ok h).1 (e ▸ drawInto_moved (ifSeeded_ok h).2)
  case nextF64 =>
    cases h
    rcases commit_gen s (s.ifSeeded (drawInto s f64)) with h | ⟨g, r, h, e⟩
    · exact .same h
    · exact .drawn (by simp) (ifSeeded_ok h).1 (e ▸ drawInto_moved (ifSeeded_ok h).2)
  case bounded =>
    unfold execBounded at h
    split at h
    · next hs =>
      split at h
      · cases h; exact .same (by simp)
      · split at h
        · next hl =>
          cases h
          obtain ⟨_, ⟨k, hk, hp⟩, a, b, c, d⟩ := lemire_eq_done hl
          exact .drawn (by simp) hs (Moved.of_forward hk hp a b c d)
        · cases h; exact .same (by simp)
        · cases h; exact .same (by simp)
    · cases h; exact .same (by simp)
  case advance =>
    cases h
    rcases commit_gen s (s.ifSeeded ((advanceFn s.gen s.opPSigned).map fun g => (g, s.res))) with h | ⟨g, r, h, e⟩
    · exact .same h
    · obtain ⟨hs, h⟩ := ifSeeded_ok h
      obtain ⟨g', ha, hg⟩ := map_eq_ok h
      cases hg
      exact .drawn (by simp) hs (e ▸ ⟨_, advanceFn_eq_ok ha⟩)
  case seek =>
    cases h
    rcases commit_gen s (s.ifSeeded
      ((advanceFn (seedInit s.gen.srecState s.gen.srecInc) s.opPSigned).map fun g => (g, s.res))) with h | ⟨g, r, h, e⟩
    · exact .same h
    · obtain ⟨hs, h⟩ := ifSeeded_ok h
      obtain ⟨g', ha, hg⟩ := map_eq_ok h
      cases hg
      exact .sought (by simp) hs (e ▸ ⟨_, advanceFn_eq_ok ha⟩)
  case reset =>
    cases h
    rcases commit_gen s (s.ifSeeded (.ok (seedInit s.gen.srecState s.gen.srecInc, s.res))) with h | ⟨g, r, h, e⟩
    · exact .same h
    · obtain ⟨hs, h⟩ := ifSeeded_ok h
      have hg : seedInit s.gen.srecState s.gen.srecInc = g := (Prod.mk.inj (Except.ok.inj h)).1
      exact .sought (by simp) hs (by rw [e, hg]; exact Moved.refl g)
  case jumped =>
    cases h
    rcases commit_gen s (s.ifSeeded
      ((advanceFn s.gen (s.opPSigned * s.jump.toNat)).map fun c => (s.gen, s.res.setClone c))) with h | ⟨g, r, h, e⟩
    · exact .same h
    · obtain ⟨_, _, hg⟩ := map_eq_ok (ifSeeded_ok h).2
      cases hg
      exact .same e
  case importRecord => cases h; exact .imported rfl _ _ _ (by simp; rfl)
  case inv =>
    cases h
    refine .same ?_
    split <;> simp
  case affPow => cases h; exact .same (State.commit_ok_gen _ _ _)
  case affComp => cases h; exact .same (State.commit_ok_gen _ _ _)
  case dxsm => cases h; exact .same (State.commit_ok_gen _ _ _)

/-- The engine's turn always answers a next state. -/
theorem engineTurn_answers_next (s : State) : ∃ t, s.engineTurn = .next t := by
  unfold State.engineTurn
  split
  · split
    · exact exec_answers_next _ _
    · exact ⟨_, rfl⟩
  · exact ⟨_, rfl⟩

theorem engineTurn_busy (s : State) (i : Instr) (hb : s.busy = true) (hd : decode s.cmd = .ok i) :
    s.engineTurn = exec i s := by
  simp [State.engineTurn, hb, hd]

theorem engineTurn_illegal (s : State) (e : Illegal) (hb : s.busy = true) (hd : decode s.cmd = .error e) :
    s.engineTurn = .next (s.fail .illegal) := by
  simp [State.engineTurn, hb, hd]

theorem engineTurn_idle (s : State) (hb : s.busy = false) : s.engineTurn = .next s := by
  simp [State.engineTurn, hb]

/-! ### The register map and the bus -/

theorem regAt_offset (r : Reg) : regAt r.offset = some r := by
  cases r with
  | op i => fin_cases i <;> rfl
  | res i => fin_cases i <;> rfl
  | _ => rfl

theorem offset_mod (r : Reg) : r.offset % 8 = 0 := by
  cases r with
  | op i => simp only [Reg.offset]; omega
  | res i => simp only [Reg.offset]; omega
  | _ => rfl

@[simp] theorem checkAccess_offset (r : Reg) : checkAccess r.offset 8 = .ok r := by
  simp [checkAccess, offset_mod, regAt_offset]

theorem regAt_eq_some {off : Nat} {r : Reg} (h : regAt off = some r) : r.offset = off := by
  have := List.find?_some h
  simpa using this

/-- An accepted access is an aligned 8-byte access at a register's offset. -/
theorem checkAccess_eq_ok {off size : Nat} {r : Reg} (h : checkAccess off size = .ok r) : size = 8 ∧ r.offset = off := by
  unfold checkAccess at h
  split at h
  · cases h
  · split at h
    · cases h
    · split at h
      · next hr => cases h; exact ⟨by omega, regAt_eq_some hr⟩
      · cases h

end Sys2Proof.Machine
end

