-- ==== Sys2Proof/Laws/PerInstr.lean ====
section
/-! SUPPORT. One lemma per instruction: the decoder reads back what the encoder writes, and the word's fields are legal. -/

namespace Sys2Proof.Laws.RoundTrip

/-- Decoding the encoding of `i` gives `i`, and the encoding is a legal command word (R72, R74). -/
def Statement (i : Instr) : Prop := decode (encode i) = .ok i ∧ (cmdWordOf (encode i)).wf = true

theorem nop : Statement .nop := ⟨rfl, rfl⟩
theorem seedPair : Statement .seedPair := ⟨rfl, rfl⟩
theorem seedState : Statement .seedState := ⟨rfl, rfl⟩
theorem seedEntropy : Statement .seedEntropy := ⟨rfl, rfl⟩
theorem next64 : Statement .next64 := ⟨rfl, rfl⟩
theorem nextF64 : Statement .nextF64 := ⟨rfl, rfl⟩
theorem bounded : Statement .bounded := ⟨rfl, rfl⟩
theorem advance : Statement .advance := ⟨rfl, rfl⟩
theorem seek : Statement .seek := ⟨rfl, rfl⟩
theorem reset : Statement .reset := ⟨rfl, rfl⟩
theorem jumped : Statement .jumped := ⟨rfl, rfl⟩
theorem importRecord : Statement .importRecord := ⟨rfl, rfl⟩
theorem inv : Statement .inv := ⟨rfl, rfl⟩
theorem affPow : Statement .affPow := ⟨rfl, rfl⟩
theorem affComp : Statement .affComp := ⟨rfl, rfl⟩
theorem dxsm : Statement .dxsm := ⟨rfl, rfl⟩

end Sys2Proof.Laws.RoundTrip
end

