-- ==== Sys2Proof/Laws/Step.lean ====
section
/-! SUPPORT. The step taken apart by its event, the decoder's fields as numbers, and runs one step at a time. -/

namespace Sys2Proof.Machine

/-! ### One equation per event -/

theorem step_nil {s : State} (h : s.schedule = []) : step s = s.engineTurn := by
  simp [step, State.nextEvent, h]

theorem step_read {s : State} {off size : Nat} {rest : List Event} (h : s.schedule = .hostRead off size :: rest) :
    step s = State.hostRead { s with schedule := rest } off size := by
  simp only [step, State.nextEvent, h]

theorem step_write {s : State} {off size : Nat} {v : Word} {rest : List Event}
    (h : s.schedule = .hostWrite off size v :: rest) :
    step s = State.hostWrite { s with schedule := rest } off size v := by
  simp only [step, State.nextEvent, h]

theorem step_wait_busy {s : State} {rest : List Event} (h : s.schedule = .hostWait :: rest) (hb : s.busy = true) :
    step s = s.engineTurn := by
  simp [step, State.nextEvent, h, State.hostPoll, hb]

theorem step_wait_idle {s : State} {rest : List Event} (h : s.schedule = .hostWait :: rest) (hb : s.busy = false) :
    step s = .next { s with schedule := rest, reply := .data (s.readReg .status) } := by
  simp [step, State.nextEvent, h, State.hostPoll, hb, State.hostRead, State.readReg, State.statusWord, State.err,
    State.seeded]

theorem step_hardwareReset {s : State} {rest : List Event} (h : s.schedule = .hardwareReset :: rest) :
    step s = .next (State.hardwareReset { s with schedule := rest }) := by
  simp only [step, State.nextEvent, h]

theorem step_engine {s : State} {rest : List Event} (h : s.schedule = .engine :: rest) :
    step s = State.engineTurn { s with schedule := rest } := by
  simp only [step, State.nextEvent, h]

/-! ### Host accesses at a register -/

theorem hostRead_reg (s : State) (r : Reg) : s.hostRead r.offset 8 = .next { s with reply := .data (s.readReg r) } := by
  simp [State.hostRead]

theorem hostWrite_reg (s : State) (r : Reg) (v : Word) :
    s.hostWrite r.offset 8 v = .next { s.writeReg v r with reply := .accepted } := by
  simp [State.hostWrite]

/-- An answered read reached some register; only the reply changes. -/
theorem hostRead_eq_next {s t : State} {off size : Nat} (h : s.hostRead off size = .next t) :
    ∃ r, size = 8 ∧ Reg.offset r = off ∧ t = { s with reply := .data (s.readReg r) } := by
  unfold State.hostRead at h
  split at h
  · next r hr => cases h; exact ⟨r, (checkAccess_eq_ok hr).1, (checkAccess_eq_ok hr).2, rfl⟩
  · cases h

/-- An answered write reached some register and had that register's effect. -/
theorem hostWrite_eq_next {s t : State} {off size : Nat} {v : Word} (h : s.hostWrite off size v = .next t) :
    ∃ r, size = 8 ∧ Reg.offset r = off ∧ t = { s.writeReg v r with reply := .accepted } := by
  unfold State.hostWrite at h
  split at h
  · next r hr => cases h; exact ⟨r, (checkAccess_eq_ok hr).1, (checkAccess_eq_ok hr).2, rfl⟩
  · cases h

/-- Everything a register write can do. -/
theorem writeReg_cases (s : State) (v : Word) (r : Reg) :
    (s.writeReg v r = s.dropWrite ∧ s.busy = true ∧ (r = .cmd ∨ ∃ i, r = .op i)) ∨
    (s.writeReg v r = s.issue v ∧ s.busy = false ∧ r = .cmd) ∨
    (∃ i, s.writeReg v r = { s with op := s.op.set i v } ∧ s.busy = false ∧ r = .op i) ∨
    (s.writeReg v r = { s with ovr := false } ∧ r = .status) ∨ s.writeReg v r = s := by
  cases r with
  | cmd => by_cases hb : s.busy = true <;> simp [State.writeReg, hb]
  | op i => by_cases hb : s.busy = true <;> simp [State.writeReg, hb]
  | status => by_cases hv : clearsOvr v = true <;> simp [State.writeReg, hv]
  | _ => exact .inr (.inr (.inr (.inr rfl)))

/-! ### The engine's turn -/

/-- Everything an engine turn can be. -/
theorem engineTurn_cases {s t : State} (h : s.engineTurn = .next t) :
    (s.busy = false ∧ t = s) ∨ (s.busy = true ∧ ∃ i, decode s.cmd = .ok i ∧ exec i s = .next t) ∨
    (s.busy = true ∧ (∃ e, decode s.cmd = .error e) ∧ t = s.fail .illegal) := by
  cases hb : s.busy with
  | false => rw [engineTurn_idle s hb] at h; cases h; exact .inl ⟨rfl, rfl⟩
  | true =>
    cases hd : decode s.cmd with
    | ok i => rw [engineTurn_busy s i hb hd] at h; exact .inr (.inl ⟨rfl, i, rfl, h⟩)
    | error e => rw [engineTurn_illegal s e hb hd] at h; cases h; exact .inr (.inr ⟨rfl, ⟨e, rfl⟩, rfl⟩)

/-! ### The fields of a command word -/

theorem word_fields (w : Word) :
    w.toNat = (rsvField w).toNat * 2 ^ 10 + (smodeField w).toNat * 2 ^ 8 + (opField w).toNat := by
  have := w.isLt
  simp only [rsvField, smodeField, opField, BitVec.extractLsb'_toNat, Nat.shiftRight_eq_div_pow]
  omega

theorem encode_toNat (i : Instr) : (encode i).toNat = i.smode.toNat * 2 ^ 8 + i.op.toNat := by
  cases i <;> rfl

/-! ### Runs -/

theorem run_zero (s : State) : Sys2Proof.core.run 0 s = .next s := rfl

theorem run_succ {s t : State} (n : Nat) (h : step s = .next t) : Sys2Proof.core.run (n + 1) s = Sys2Proof.core.run n t := by
  have hs : Sys2Proof.core.step s = .next t := h
  simp only [Host.Core.run, hs]

end Sys2Proof.Machine
end

