-- ==== Sys2Proof/Tests/Slice0.lean ====
section
/-! SUPPORT. Tests: the ill-formed words, each command's word written out from the encoding table, at most two small tests per
instruction with values taken from the specification's own vectors (95_test_vectors.md), and for every statement with hypotheses
a witness that meets them. -/

namespace Sys2Proof.Tests

open Sys2Proof Sys2Proof.Machine

/-! ### WellFormed: one ill-formed word per check -/

theorem test_wf_refuses_reserved_bits : (cmdWordOf 0x400).rsvIsZero = false ∧ (cmdWordOf 0x400).wf = false := by decide
theorem test_wf_refuses_reserved_op : (cmdWordOf 0x00E).opIsDefined = false ∧ (cmdWordOf 0x00E).wf = false := by decide
theorem test_wf_refuses_seed_mode_3 : (cmdWordOf 0x301).seedModeIsDefined = false ∧ (cmdWordOf 0x301).wf = false := by
  decide
theorem test_wf_refuses_mode_on_other : (cmdWordOf 0x102).modeOnlyForSeed = false ∧ (cmdWordOf 0x102).wf = false := by
  decide
theorem test_wf_accepts : (cmdWordOf 0x201).wf = true ∧ (cmdWordOf 0x00D).wf = true := by decide

/-! ### Decode: words written bit by bit, RSV (54 bits), SMODE (2 bits), OP (8 bits), from the table of R72 -/

theorem test_decode_nop : decode (0#54 ++ 0b00#2 ++ 0b00000000#8) = .ok .nop := by decide
theorem test_decode_seedPair : decode (0#54 ++ 0b00#2 ++ 0b00000001#8) = .ok .seedPair := by decide
theorem test_decode_seedState : decode (0#54 ++ 0b01#2 ++ 0b00000001#8) = .ok .seedState := by decide
theorem test_decode_seedEntropy : decode (0#54 ++ 0b10#2 ++ 0b00000001#8) = .ok .seedEntropy := by decide
theorem test_decode_next64 : decode (0#54 ++ 0b00#2 ++ 0b00000010#8) = .ok .next64 := by decide
theorem test_decode_nextF64 : decode (0#54 ++ 0b00#2 ++ 0b00000011#8) = .ok .nextF64 := by decide
theorem test_decode_bounded : decode (0#54 ++ 0b00#2 ++ 0b00000100#8) = .ok .bounded := by decide
theorem test_decode_advance : decode (0#54 ++ 0b00#2 ++ 0b00000101#8) = .ok .advance := by decide
theorem test_decode_seek : decode (0#54 ++ 0b00#2 ++ 0b00000110#8) = .ok .seek := by decide
theorem test_decode_reset : decode (0#54 ++ 0b00#2 ++ 0b00000111#8) = .ok .reset := by decide
theorem test_decode_jumped : decode (0#54 ++ 0b00#2 ++ 0b00001000#8) = .ok .jumped := by decide
theorem test_decode_importRecord : decode (0#54 ++ 0b00#2 ++ 0b00001001#8) = .ok .importRecord := by decide
theorem test_decode_inv : decode (0#54 ++ 0b00#2 ++ 0b00001010#8) = .ok .inv := by decide
theorem test_decode_affPow : decode (0#54 ++ 0b00#2 ++ 0b00001011#8) = .ok .affPow := by decide
theorem test_decode_affComp : decode (0#54 ++ 0b00#2 ++ 0b00001100#8) = .ok .affComp := by decide
theorem test_decode_dxsm : decode (0#54 ++ 0b00#2 ++ 0b00001101#8) = .ok .dxsm := by decide
/-- V-G10, V-K2 to V-K5. -/
theorem test_decode_rejects : decode 0x301 = .error .reservedSeedMode ∧ decode 0x00E = .error .reservedOp ∧
    decode 0x102 = .error .seedModeOnOther ∧ decode 0x400 = .error .reservedBits ∧ decode 0x0FF = .error .reservedOp := by
  decide
theorem test_decodeTableWord : decodeTableWord 64 0x101 = some .seedState ∧ decodeTableWord 64 0x301 = none := by decide

/-! ### The states the tests start from -/

/-- A reset block with concrete parameters: no entropy source, JUMP_DISTANCE = 1 (the test configuration of V-G20). -/
def base : State := { State.reset with ent := false, jump := 1, entropy := .unavailable }

/-- `s` with operands A and B. -/
def withAB (s : State) (a b : U128) : State :=
  { s with op := { s.op with r0 := lo64 a, r1 := hi64 a, r2 := lo64 b, r3 := hi64 b } }

/-- `s` with operand P, given as an integer. -/
def withP (s : State) (p : Int) : State :=
  let v := BitVec.ofInt 256 p
  { s with op := { s.op with
      r4 := v.extractLsb' 0 64, r5 := v.extractLsb' 64 64, r6 := v.extractLsb' 128 64, r7 := v.extractLsb' 192 64 } }

/-- `s` with a command word pending. -/
def pending (s : State) (w : Word) : State := { s with cmd := w, busy := true }

/-- The seed point of seed(0, 1). -/
def s0 : U128 := 0xDA942042E4DD58B6

/-- The generator after seed(0, 1) (V-G1). -/
def gen01 : Gen := { state := s0, inc := 1, pos := 0, srecState := 0, srecInc := 1, seeded := true }

/-- The block after seed(0, 1). -/
def seeded01 : State := { base with gen := gen01 }

/-- The block after seed(0, 1) with another state and position. -/
def at01 (st : U128) (pos : Int) : State := { base with gen := { gen01 with state := st, pos := BitVec.ofInt 256 pos } }

/-- The state an instruction leaves. -/
def run (i : Instr) (s : State) : State :=
  match exec i s with
  | .next t => t
  | .fault _ => s
  | .refused _ => s

/-- R as a 128-bit value. -/
def resR (s : State) : U128 := s.res.r1 ++ s.res.r0
/-- S as a 128-bit value. -/
def resS (s : State) : U128 := s.res.r3 ++ s.res.r2
/-- Q as a signed value. -/
def resQ (s : State) : Int := (s.res.r7 ++ s.res.r6 ++ s.res.r5 ++ s.res.r4 : U256).toInt

/-! ### One or two vectors per instruction -/

/-- V-K1. -/
theorem test_nop_clears_ecode :
    (run .nop { seeded01 with ecode := .bound, busy := true }).ecode = .ok ∧ (run .nop seeded01).gen = gen01 := by decide
/-- V-G1, V-G2. -/
theorem test_seedPair_forces_odd :
    (run .seedPair (withAB base 0 1)).gen = gen01 ∧ (run .seedPair (withAB base 0 0)).gen = gen01 := by decide
/-- V-G5. -/
theorem test_seedPair_wide :
    (run .seedPair (withAB base 0x00112233445566778899AABBCCDDEEFF 0x0F0E0D0C0B0A09080706050403020100)).gen.state =
    0x1F48719AC3ED163F5ACCFD2926D6B101 := by decide
/-- V-G7. -/
theorem test_seedState :
    (run .seedState (withAB base 0x0123456789ABCDEF0123456789ABCDEF 77)).gen.state = 0x9BF82F820876E23B75939E21ED731AB1 := by decide
/-- V-G8. -/
theorem test_seedEntropy_is_big_endian :
    (run .seedEntropy { base with ent := true, entropy := .bytes (Vector.ofFn fun i => BitVec.ofNat 8 i.val) }).gen.state =
    0x0B5197DE246AB0F7145D26811CD42AA5 := by decide
/-- V-G9. -/
theorem test_seedEntropy_without_source :
    (run .seedEntropy base).ecode = .noEntropy ∧ (run .seedEntropy base).gen = Gen.reset := by decide
/-- V-G6, V-A5. -/
theorem test_next64_outputs_before_stepping :
    (run .next64 (at01 0xBAA09CA73F3265B5D4C622FB941C48AF 1)).res.r0 = 0x5238EA76D1F0DF4A ∧
    (run .next64 (at01 0xBAA09CA73F3265B5D4C622FB941C48AF 1)).gen.state = 0x961760E0D617BE8692C1E10E0C0E8BBC := by decide
/-- V-G13. -/
theorem test_next64_at_the_last_position :
    (run .next64 (at01 5 (2 ^ 255 - 1))).ecode = .posRange ∧ (run .next64 (at01 5 (2 ^ 255 - 1))).gen.state = 5 := by decide
/-- V-G11. -/
theorem test_nextF64 :
    (run .nextF64 (at01 0xBAA09CA73F3265B5D4C622FB941C48AF 1)).res.r0 = 0x3FD48E3A9DB47C36 := by decide
/-- V-A9 to V-A13. -/
theorem test_f64_corners :
    f64 0x7FF = 0 ∧ f64 0x800 = 0x3CA0000000000000 ∧ f64 0x8000000000000000 = 0x3FE0000000000000 ∧
    f64 0xFFFFFFFFFFFFFFFF = 0x3FEFFFFFFFFFFFFF := by decide
/-- V-B3. -/
theorem test_bounded_rejects_one_draw :
    (run .bounded (withAB seeded01 6 1)).res.r0 = 1 ∧ (run .bounded (withAB seeded01 6 1)).gen.pos = 2 := by decide
/-- V-B7. -/
theorem test_bounded_rejects_four_draws :
    (run .bounded (withAB seeded01 0x8000000000000001 1)).res.r0 = 0x40DDA97C5D55101D ∧
    (run .bounded (withAB seeded01 0x8000000000000001 1)).gen.state = 0xE3FF250C30101DF4BF76C1C67B23953B := by decide
/-- V-F11. -/
theorem test_advance_forward :
    (run .advance (withP seeded01 3)).gen.state = 0xF150A38501AA77F00235D68D979D6BED ∧ (run .advance (withP seeded01 3)).gen.pos = 3 := by decide
/-- V-F16. -/
theorem test_advance_back :
    (run .advance (withP seeded01 (-3))).gen.state = 0xF32C9A2D34E59593747C72FCAB152A63 := by decide
/-- V-G15. -/
theorem test_seek_from_the_record :
    (run .seek (withP (at01 77 9) 3)).gen.state = 0xF150A38501AA77F00235D68D979D6BED := by decide
/-- V-G16. -/
theorem test_seek_before_the_seed_point :
    (run .seek (withP (at01 77 9) (-1))).gen.state = 1 ∧ (run .seek (withP (at01 77 9) (-1))).gen.pos.toInt = -1 := by decide
/-- V-G18. -/
theorem test_reset_to_the_seed_point :
    (run .reset (at01 0xE3FF250C30101DF4BF76C1C67B23953B 5)).gen = gen01 := by decide
/-- V-G20. -/
theorem test_jumped_in_the_test_configuration :
    resR (run .jumped (withP seeded01 3)) = 0xF150A38501AA77F00235D68D979D6BED ∧ resQ (run .jumped (withP seeded01 3)) = 3 := by decide
/-- V-G21. -/
theorem test_jumped_with_a_full_width_distance :
    resR (run .jumped (withP { seeded01 with jump := BitVec.allOnes 128 } 3)) = 0xF32C9A2D34E59593747C72FCAB152A63 ∧
    resQ (run .jumped (withP { seeded01 with jump := BitVec.allOnes 128 } 3)) = 3 * (2 ^ 128 - 1) := by decide +kernel
/-- V-G25. -/
theorem test_import_derives_the_record :
    (run .importRecord (withP (withAB base 0x0123456789ABCDEF0123456789ABCDEF 2) 7)).gen.srecState =
    0xC43B91AD3F53EC6BA50CD21896A2C024 := by decide
/-- V-G26. -/
theorem test_import_at_the_last_position :
    (run .importRecord (withP (withAB base 5 1) (2 ^ 255 - 1))).gen.srecState = 4 := by decide +kernel
/-- V-M5. -/
theorem test_inv :
    resR (run .inv (withAB base 0xFFFFFFFFFFFFFFFF 0)) = 0xFFFFFFFFFFFFFFFEFFFFFFFFFFFFFFFF := by decide
/-- V-M8. -/
theorem test_inv_of_an_even_operand :
    (run .inv (withAB base 2 0)).ecode = .even ∧ (run .inv (withAB base 2 0)).res = Bank.zero := by decide
/-- V-F4. -/
theorem test_affPow :
    resR (run .affPow (withP (withAB base 3 5) 10)) = 0xE6A9 ∧ resS (run .affPow (withP (withAB base 3 5) 10)) = 0x240A4 := by decide
/-- V-F10. -/
theorem test_affPow_of_the_largest_exponent :
    resS (run .affPow (withP (withAB base lcgMul 1) (-1))) = 0xF32C9A2D34E59593747C72FCAB152A63 := by decide +kernel
/-- V-F1. -/
theorem test_affComp :
    resR (run .affComp (withP (withAB base 2 3) (7 * 2 ^ 128 + 5))) = 10 ∧ resS (run .affComp (withP (withAB base 2 3) (7 * 2 ^ 128 + 5))) = 22 := by decide
/-- V-A7. -/
theorem test_dxsm_wraps :
    (run .dxsm (withAB base (BitVec.allOnes 128) 0)).res.r0 = 0xE4DD58B4FFFFE4DE := by decide
/-- V-A8. -/
theorem test_dxsm_forces_lo_odd :
    (run .dxsm (withAB base 0x10000000000000000 0)).res.r0 = 0xDA942042E4DD8221 := by decide

/-! ### The bus and STATUS -/

/-- V-K6, V-K7. -/
theorem test_status_word : { seeded01 with ent := true }.statusWord = 0x202 ∧ { base with ecode := .unseeded }.statusWord = 0x024 := by
  decide
/-- V-K10. -/
theorem test_bus_refuses : checkAccess 0x018 8 = .error (.unmapped 0x018) ∧ checkAccess 0x138 8 = .error (.unmapped 0x138) ∧
    checkAccess 0x020 4 = .error (.accessSize 4) ∧ checkAccess 0x024 8 = .error (.misaligned 0x024) := by decide
/-- V-K13. -/
theorem test_mulInv_reads : base.readReg .mulInvLo = 0x8B838D0354EAD59D ∧ base.readReg .mulInvHi = 0x0CD365D2CB1A6A6C := by decide
/-- V-K8: both outcomes, by where the engine's turn falls. -/
theorem test_unwaited_write :
    (State.writeReg (pending base 0x2) 7 (.op 0)).ovr = true ∧ (State.writeReg (pending base 0x2) 7 (.op 0)).op.r0 = 0 ∧
    (State.writeReg (run .next64 (pending base 0x2)) 7 (.op 0)).op.r0 = 7 := by decide
/-! ### Witnesses: for every statement with hypotheses, states and operands that meet them, one per clause -/

/-- An event list with one access of every kind the bus accepts. -/
def accesses : List Event :=
  [.hostWrite 0x010 8 0x1, .hostWait, .hostRead 0x130 8, .hostWrite 0x000 8 5, .engine, .hardwareReset]

/-- `s` with a schedule. -/
def scheduled (s : State) (l : List Event) : State := { s with schedule := l }

theorem witness_HardwareResetSetsEveryRegister :
    (scheduled (pending seeded01 0x2) [.hardwareReset]).schedule = .hardwareReset :: [] := by decide

theorem no_decode {w : Word} (e : Illegal) (h : decode w = .error e) (i : Instr) : decode w ≠ .ok i := by
  rw [h]; simp

/-- Each kind of illegal word, at the boundary of its range; the state accepts it, and has it pending. -/
theorem witness_IllegalWordsCompleteWithEIllegal :
    (∀ i, decode 0x400 ≠ .ok i) ∧ (∀ i, decode 0x00E ≠ .ok i) ∧ (∀ i, decode 0x301 ≠ .ok i) ∧ (∀ i, decode 0x102 ≠ .ok i) ∧
    (scheduled base [.hostWrite 0x010 8 0x400]).busy = false ∧ (pending base 0x400).busy = true ∧
    (pending base 0x400).cmd = 0x400 ∧ (pending base 0x400).schedule = [] ∧
    (scheduled (pending base 0x400) [.engine]).schedule = .engine :: [] ∧
    (scheduled (pending base 0x400) [.hostWait]).schedule = .hostWait :: [] :=
  ⟨no_decode .reservedBits (by decide), no_decode .reservedOp (by decide), no_decode .reservedSeedMode (by decide),
    no_decode .seedModeOnOther (by decide), by decide, by decide, by decide, by decide, by decide, by decide⟩

theorem witness_StepRunsTheDecodedCommand :
    (pending base 0x00D).busy = true ∧ decode (pending base 0x00D).cmd = .ok .dxsm ∧ (pending base 0x00D).schedule = [] ∧
    (scheduled (pending base 0x00D) [.engine]).schedule = .engine :: [] ∧
    (scheduled (pending base 0x00D) [.hostWait]).schedule = .hostWait :: [] := by decide

theorem witness_IdleBlockDoesNothing : base.busy = false ∧ base.schedule = [] ∧ (scheduled base [.engine]).busy = false := by
  decide

theorem witness_WaitEndsAtTheFirstIdlePoll :
    (scheduled base [.hostWait]).busy = false ∧ (scheduled (pending base 0x400) [.hostWait]).busy = true ∧
    ∃ t, step (scheduled (pending base 0x400) [.hostWait]) = .next t := ⟨rfl, rfl, _, rfl⟩

theorem witness_AcceptedRunsNeverStop : ∀ e ∈ (scheduled base accesses).schedule, e.accepted = true := by decide

/-- The first and the last offset of the map. -/
theorem witness_ReadHasNoSideEffect :
    (scheduled base [.hostRead 0x000 8]).schedule = .hostRead Reg.id.offset 8 :: [] ∧
    (scheduled base [.hostRead 0x130 8]).schedule = .hostRead Reg.mulInvHi.offset 8 :: [] := by decide

/-- Refused: a wrong size, a wrong alignment, the hole, the first offset past the map, one past the window. Accepted: the two
neighbours of the hole and the last register, read and written. -/
theorem witness_BusRefusesExactlyTheUnlistedAccesses :
    (4 ≠ 8) ∧ 0x024 % 8 ≠ 0 ∧ 0x018 = 0x018 ∧ 0x138 ≤ 0x138 ∧ 0x138 ≤ 0x1000 ∧
    ¬ (8 ≠ 8 ∨ 0x010 % 8 ≠ 0 ∨ 0x010 = 0x018 ∨ 0x138 ≤ 0x010) ∧ ¬ (8 ≠ 8 ∨ 0x020 % 8 ≠ 0 ∨ 0x020 = 0x018 ∨ 0x138 ≤ 0x020) ∧
    ¬ (8 ≠ 8 ∨ 0x130 % 8 ≠ 0 ∨ 0x130 = 0x018 ∨ 0x138 ≤ 0x130) ∧
    (scheduled base [.hostRead 0x020 4]).schedule = .hostRead 0x020 4 :: [] ∧
    (scheduled base [.hostWrite 0x018 8 7]).schedule = .hostWrite 0x018 8 7 :: [] ∧
    (scheduled base [.hostRead 0x130 8]).schedule = .hostRead 0x130 8 :: [] ∧
    (scheduled base [.hostWrite 0x020 8 7]).schedule = .hostWrite 0x020 8 7 :: [] := by decide

theorem witness_CmdWriteIssues :
    base.busy = false ∧ (scheduled base [.hostWrite 0x010 8 0x400]).schedule = .hostWrite 0x010 8 0x400 :: [] := by decide

/-- OP0 and OP7. -/
theorem witness_OperandWriteStores :
    base.busy = false ∧
    (scheduled base [.hostWrite 0x020 8 7]).schedule = .hostWrite (0x020 + 8 * (0 : Fin 8).val) 8 7 :: [] ∧
    (scheduled base [.hostWrite 0x058 8 7]).schedule = .hostWrite (0x020 + 8 * (7 : Fin 8).val) 8 7 :: [] := by decide

/-- A dropped write to CMD and to OP7, a STATUS write, a read-only register, and a step in which OVR rises. -/
theorem witness_WritesWhileBusyAreDropped :
    (pending base 0x2).busy = true ∧ (0x058 = 0x020 + 8 * (7 : Fin 8).val) ∧ (0x100 : Word).getLsbD 8 = true ∧
    Reg.id.readOnly = true ∧ (scheduled (pending base 0x2) [.hostWrite 0x010 8 1]).ovr = false ∧
    ∃ t, step (scheduled (pending base 0x2) [.hostWrite 0x010 8 1]) = .next t ∧ t.ovr = true :=
  ⟨rfl, rfl, rfl, rfl, rfl, _, rfl, rfl⟩

theorem witness_OvrIsStickyUntilWrittenOne :
    (pending base 0x2).busy = true ∧ (scheduled base [.hostWrite 0x008 8 0x100]).schedule = .hostWrite 0x008 8 0x100 :: [] ∧
    ∃ t, exec .nop base = .next t := ⟨rfl, rfl, exec_answers_next _ _⟩

/-- A read-only register, a STATUS write, the bits 3, 10 and 63, and an answered read. -/
theorem witness_ReadOnlyRegistersIgnoreWrites :
    (Reg.id ≠ .cmd ∧ Reg.id ≠ .status ∧ ∀ i, Reg.id ≠ .op i) ∧ (3 = 3 ∨ 10 ≤ 3) ∧ 10 ≤ 10 ∧ 10 ≤ 63 ∧
    ∃ t, step (scheduled base [.hostRead 0x008 8]) = .next t := ⟨by decide, by decide, by decide, by decide, _, rfl⟩

theorem witness_PendingCommandIsUntouchedByAccesses :
    (pending base 0x2).busy = true ∧ (∃ t, step (scheduled (pending base 0x2) [.hostRead 0x060 8]) = .next t) ∧
    ∃ t, step (scheduled (pending base 0x2) [.hostWrite 0x020 8 1]) = .next t := ⟨rfl, ⟨_, rfl⟩, _, rfl⟩

/-- B even and B odd. -/
theorem witness_SeedPairSeedsFromAAndB :
    (1 = if (withAB base 0 0).opB.toNat % 2 = 0 then (withAB base 0 0).opB.toNat + 1 else (withAB base 0 0).opB.toNat) ∧
    (1 = if (withAB base 0 1).opB.toNat % 2 = 0 then (withAB base 0 1).opB.toNat + 1 else (withAB base 0 1).opB.toNat) := by
  decide

theorem witness_SeedStateSeedsFromA : (withAB base 9 0).opB = 0 ∧ (withAB base 9 1).opB = 1 := by decide

/-- The 32 bytes 0, 0, ..., 0 with the last one 2: the increment is even and is forced to 3. -/
theorem witness_SeedEntropySeedsFromTheDraw :
    base.ent = false ∧ { base with ent := true }.entropy = .unavailable ∧
    ∃ e : Vector Byte 32, { base with ent := true, entropy := .bytes e }.entropy = .bytes e ∧
      0 = ∑ i ∈ Finset.range 16, (e.toList.getD i 0).toNat * 2 ^ (8 * (15 - i)) ∧
      2 = ∑ i ∈ Finset.range 16, (e.toList.getD (16 + i) 0).toNat * 2 ^ (8 * (15 - i)) ∧ 3 = (if 2 % 2 = 0 then 2 + 1 else 2) :=
  ⟨rfl, rfl, (Vector.replicate 31 0).push 2, rfl, by decide, by decide, rfl⟩

theorem witness_SilentEntropySourceLeavesBusy :
    { pending base 0x201 with ent := true, entropy := .silent }.ent = true ∧ (pending base 0x201).busy = true ∧
    (pending base 0x201).cmd = 0x201 ∧ (pending base 0x201).schedule = [] := by decide

/-- V-A8: the state 2^64. -/
theorem witness_DxsmPermutationOnNumbers :
    1 = (0x10000000000000000 : U128).toNat / 2 ^ 64 ∧ 1 = (0x10000000000000000 : U128).toNat % 2 ^ 64 ||| 1 ∧
    1 = 1 ^^^ 1 / 2 ^ 32 ∧ 0xDA942042E4DD58B5 = 1 * 0xDA942042E4DD58B5 % 2 ^ 64 ∧
    0xDA942042E4DD8221 = 0xDA942042E4DD58B5 ^^^ 0xDA942042E4DD58B5 / 2 ^ 48 ∧ 0 = (5 : U128).toNat / 2 ^ 64 := by decide

/-- An unseeded block, the last position, and the last but one. -/
theorem witness_Next64DrawsOnce :
    base.gen.seeded = false ∧ (at01 5 (2 ^ 255 - 1)).gen.seeded = true ∧
    (at01 5 (2 ^ 255 - 1)).gen.pos.toInt = 2 ^ 255 - 1 ∧ (at01 5 (2 ^ 255 - 2)).gen.pos.toInt ≠ 2 ^ 255 - 1 := by decide

/-- The same states serve NEXTF64; the first position is one more. -/
theorem witness_NextF64DrawsOnce :
    base.gen.seeded = false ∧ (at01 5 (2 ^ 255 - 1)).gen.seeded = true ∧
    (at01 5 (2 ^ 255 - 1)).gen.pos.toInt = 2 ^ 255 - 1 ∧ (at01 5 (-2 ^ 255)).gen.pos.toInt ≠ 2 ^ 255 - 1 := by decide

theorem witness_F64IsExact : (0x7FF : Word).toNat / 2 ^ 11 = 0 := by decide

/-- V-B3: with bound 6 the first draw is rejected and the second accepted; the position ends at the last one. -/
theorem witness_BoundedReturnsTheFirstAcceptedDraw :
    (withAB (at01 s0 (2 ^ 255 - 3)) 6 1).gen.seeded = true ∧ (withAB (at01 s0 (2 ^ 255 - 3)) 6 1).opA.toNat = 6 ∧
    FirstAccepted (at01 s0 (2 ^ 255 - 3)).gen 6 1 ∧ 1 ≤ Config.lemireFuel + base.waited ∧
    (at01 s0 (2 ^ 255 - 3)).gen.pos.toInt + (1 + 1) ≤ 2 ^ 255 - 1 := by decide

/-- The two ends of the bound's range, where the first draw is accepted. -/
theorem witness_BoundedReturnsTheFirstAcceptedDraw_ends :
    FirstAccepted gen01 1 0 ∧ FirstAccepted gen01 (2 ^ 64) 0 ∧ (withAB seeded01 1 1).opA.toNat = 1 ∧
    (withAB seeded01 0x10000000000000000 1).opA.toNat = 2 ^ 64 := by decide

/-- Unseeded; the bounds 0 and 2^64 + 1; the last position; the last but one with a rejected draw. -/
theorem witness_BoundedErrors :
    base.gen.seeded = false ∧ (withAB seeded01 0 1).opA.toNat = 0 ∧ 2 ^ 64 < (withAB seeded01 0x10000000000000001 1).opA.toNat ∧
    NoneAcceptedBefore (at01 s0 (2 ^ 255 - 1)).gen 6 0 ∧ (at01 s0 (2 ^ 255 - 1)).gen.pos.toInt + (0 : Nat) = 2 ^ 255 - 1 ∧
    NoneAcceptedBefore (at01 s0 (2 ^ 255 - 2)).gen 6 1 ∧ (at01 s0 (2 ^ 255 - 2)).gen.pos.toInt + (1 : Nat) = 2 ^ 255 - 1 := by
  decide

/-- A generator whose state and increment are 0 draws 0 for ever, and the bound 6 rejects every 0. -/
def stuckGen : Gen := { state := 0, inc := 0, pos := 0, srecState := 0, srecInc := 0, seeded := true }

theorem stuckGen_rejects (n : Nat) : NoneAcceptedBefore stuckGen 6 n := by
  intro j _
  have hf : ∀ j, forward 0 j 0 = 0 := by
    intro j
    induction j with
    | zero => rfl
    | succ j ih => rw [forward_succ, ih]; decide
  have hd : nthDraw stuckGen j = 0 := by unfold nthDraw stuckGen; rw [hf j]; decide
  rw [hd]; decide

theorem witness_BoundedOutOfFuelIsNotCompleted :
    ({ withAB base 6 0 with gen := stuckGen } : State).gen.seeded = true ∧ (withAB base 6 0).opA.toNat = 6 ∧
    NoneAcceptedBefore stuckGen 6 (Config.lemireFuel + base.waited + 1) ∧
    stuckGen.pos.toInt + (Config.lemireFuel + base.waited + 1 : Nat) ≤ 2 ^ 255 - 1 :=
  ⟨rfl, by decide, stuckGen_rejects _, by decide⟩

theorem witness_BoundedCompletesWhenItsLoopEnds :
    (pending (withAB seeded01 6 1) 0x4).busy = true ∧ (pending (withAB seeded01 6 1) 0x4).cmd = 0x4 ∧
    (pending (withAB seeded01 6 1) 0x4).schedule = [] ∧ (pending (withAB seeded01 6 1) 0x4).opA.toNat = 6 ∧
    FirstAccepted gen01 6 1 ∧ gen01.pos.toInt + (1 + 1) ≤ 2 ^ 255 - 1 := by decide

theorem witness_BoundedOutcomeIsBelowTheBound :
    (pending (withAB seeded01 6 1) 0x4).busy = true ∧ (run .bounded (pending (withAB seeded01 6 1) 0x4)).busy = false ∧
    (run .bounded (pending (withAB seeded01 6 1) 0x4)).ecode = .ok := by decide

/-- The smallest and the largest bound with their largest outcome. -/
theorem witness_LemireSamplingIsUnbiased :
    (1 ≤ 1 ∧ 1 ≤ 2 ^ 64 ∧ (0 : Word).toNat < 1) ∧ (1 ≤ 2 ^ 64 ∧ 2 ^ 64 ≤ 2 ^ 64 ∧ (BitVec.allOnes 64).toNat < 2 ^ 64) := by
  decide

/-- Unseeded; one step past each end of the position's range; one step to each end. -/
theorem witness_AdvanceMovesByRawSteps :
    base.gen.seeded = false ∧
    2 ^ 255 - 1 < (at01 5 (2 ^ 255 - 1)).gen.pos.toInt + (withP base 1).opPSigned ∧
    (at01 5 (-2 ^ 255)).gen.pos.toInt + (withP base (-1)).opPSigned < -2 ^ 255 ∧
    (at01 5 (2 ^ 255 - 2)).gen.pos.toInt + (withP base 1).opPSigned = 2 ^ 255 - 1 ∧
    (at01 5 (-2 ^ 255 + 1)).gen.pos.toInt + (withP base (-1)).opPSigned = -2 ^ 255 := by decide

theorem witness_AdvanceUndoesAndReplacesDraws :
    (pending (withP seeded01 3) 0x5).busy = true ∧ (run .advance (pending (withP seeded01 3) 0x5)).busy = false ∧
    (run .advance (pending (withP seeded01 3) 0x5)).ecode = .ok ∧ (withP seeded01 (-3)).opPSigned = -(withP seeded01 3).opPSigned ∧
    (run .advance (withP (pending (run .advance (withP seeded01 3)) 0x5) (-3))).ecode = .ok ∧
    (withP (at01 5 (2 ^ 255 - 4)) 3).gen.seeded = true ∧ (withP base 3).opPSigned = (3 : Nat) ∧
    (at01 5 (2 ^ 255 - 4)).gen.pos.toInt + (3 : Nat) ≤ 2 ^ 255 - 1 := by decide

theorem witness_AdvanceFnIsInvertibleAndAdditive :
    ∃ g' g'' g1 g2 g3, advanceFn gen01 3 = .ok g' ∧ advanceFn g' (-3) = .ok g'' ∧ advanceFn gen01 1 = .ok g1 ∧
      advanceFn g1 2 = .ok g2 ∧ advanceFn gen01 (1 + 2) = .ok g3 := by
  have h := fun (g : Gen) (d : Int) (hd : posMin ≤ g.pos.toInt + d ∧ g.pos.toInt + d ≤ posMax) => advanceFn_ok g d hd.1 hd.2
  exact ⟨_, _, _, _, _, h gen01 3 (by decide), h _ (-3) (by decide), h gen01 1 (by decide), h _ 2 (by decide),
    h gen01 (1 + 2) (by decide)⟩

/-- The smallest and the largest increment. -/
theorem witness_StepsHavePeriodTwoToThe128 : (1 : U128).getLsbD 0 = true ∧ (BitVec.allOnes 128).getLsbD 0 = true := by decide

theorem witness_LcgHasFullPeriod : (1 : U128).getLsbD 0 = true ∧ 2 ^ 128 ∣ 2 ^ 128 ∧ ¬ 2 ^ 128 ∣ 2 ^ 127 := by decide

theorem witness_SeekGoesToThePosition :
    base.gen.seeded = false ∧ seeded01.gen.seeded = true ∧ 1 = seeded01.gen.srecInc ||| 1 := by decide

theorem witness_ResetIsSeekZero :
    base.gen.seeded = false ∧ seeded01.gen.seeded = true ∧ 1 = seeded01.gen.srecInc ||| 1 ∧ seeded01.opP = 0 := by decide

/-- With JUMP_DISTANCE = 1: unseeded; one step past each end of the position's range; one step to each end. -/
theorem witness_JumpedDeliversTheClone :
    base.gen.seeded = false ∧ (1 = (withP base 1).opPSigned * base.jump.toNat) ∧ (-1 = (withP base (-1)).opPSigned * base.jump.toNat) ∧
    2 ^ 255 - 1 < (at01 5 (2 ^ 255 - 1)).gen.pos.toInt + 1 ∧ (at01 5 (-2 ^ 255)).gen.pos.toInt + -1 < -2 ^ 255 ∧
    (at01 5 (2 ^ 255 - 2)).gen.pos.toInt + 1 = 2 ^ 255 - 1 ∧ (at01 5 (-2 ^ 255 + 1)).gen.pos.toInt + -1 = -2 ^ 255 := by decide

theorem witness_ImportLoadsTheRecord : 3 = (withAB base 5 2).opB ||| 1 := by decide

/-- The generator after seed(0, 1) meets the invariant. -/
theorem gen01_inv : gen01.Inv :=
  ⟨by decide, by decide, fun _ => (by decide : forward gen01.inc 0 gen01.seedPoint = forward gen01.inc 0 gen01.state),
    fun h => by cases h⟩

theorem witness_ImportOfTheExportRestoresTheGenerator :
    (withAB seeded01 s0 1).gen.Inv ∧ (withAB seeded01 s0 1).gen.seeded = true ∧ (withAB seeded01 s0 1).opA = gen01.state ∧
    (withAB seeded01 s0 1).opB = gen01.inc ∧ (withAB seeded01 s0 1).opP = gen01.pos :=
  ⟨gen01_inv, by decide, by decide, by decide, by decide⟩

theorem witness_InvWritesTheUniqueInverse :
    (withAB base 0 0).opA.toNat % 2 = 0 ∧ (withAB base (BitVec.allOnes 128) 0).opA.toNat % 2 = 1 := by decide

/-- A seeded block that meets the invariant, and a step of it that draws. -/
theorem witness_StepKeepsTheInvariant : (pending seeded01 0x2).Inv ∧ ∃ t, step (pending seeded01 0x2) = .next t :=
  ⟨⟨gen01_inv, by decide⟩, (step_nil (s := pending seeded01 0x2) rfl).symm ▸ engineTurn_answers_next _⟩

/-- V-K2: a reserved word completes with E_ILLEGAL. -/
theorem witness_FailureWritesOnlyEcodeAndBusy :
    (pending seeded01 0x00E).busy = true ∧ (pending seeded01 0x00E).schedule = [] ∧
    (scheduled (pending seeded01 0x00E) [.engine]).schedule = .engine :: [] ∧
    (scheduled (pending seeded01 0x00E) [.hostWait]).schedule = .hostWait :: [] ∧
    ∃ t, step (pending seeded01 0x00E) = .next t ∧ t.busy = false ∧ t.ecode ≠ .ok :=
  ⟨rfl, rfl, rfl, rfl, _, (step_nil (s := pending seeded01 0x00E) rfl).trans (engineTurn_illegal _ .reservedOp rfl (by decide)),
    by decide, by decide⟩

/-- A success, a failure and an unseeded block. -/
theorem witness_OutcomeCodesByCommand :
    (pending base 0x2).busy = true ∧ (run .next64 (pending seeded01 0x2)).busy = false ∧ (run .next64 (pending base 0x2)).busy = false ∧
    (run .inv (pending base 0xA)).busy = false := by decide

/-- A seeding that succeeds, a seeded block that draws, an unseeded one that is seeded, and an unseeded NEXT64. -/
theorem witness_SeededIsSetBySeedingOnly :
    Instr.seeds .seedPair = true ∧ (run .seedPair (pending base 0x1)).busy = false ∧ (run .seedPair (pending base 0x1)).ecode = .ok ∧
    seeded01.gen.seeded = true ∧ base.gen.seeded = false ∧ (run .seedPair base).gen.seeded = true ∧
    Instr.needsSeeded .next64 = true := by decide

/-- Hardware reset of a seeded block and SEED.PAIR on an unseeded one change the increment. -/
theorem witness_OnlySeedingWritesTheIncrement :
    gen01.Inv ∧ (∃ t, step (scheduled seeded01 [.hardwareReset]) = .next t ∧ t.gen.inc ≠ gen01.inc) ∧ Gen.reset.Inv ∧
    (run .seedPair (withAB base 0 1)).gen.inc ≠ base.gen.inc ∧ Instr.jumped ∈ [Instr.jumped, .inv, .affPow, .affComp, .dxsm, .nop] :=
  ⟨gen01_inv, ⟨_, step_hardwareReset (s := scheduled seeded01 [.hardwareReset]) (rest := []) rfl, by decide⟩,
    ⟨by decide, by decide, (fun h => by cases h), fun _ => rfl⟩, by decide, by decide⟩

theorem witness_NoCommandWritesOperandsOrCmd : ∃ t, exec .affPow base = .next t := exec_answers_next _ _

theorem witness_CommandsWriteOnlyTheNamedRegisters :
    seeded01.gen.Inv ∧ (∃ t, exec .seek seeded01 = .next t) ∧ Reg.incLo ≠ .status ∧ Reg.incLo ∉ Instr.written .seek ∧
    Instr.seeds .seek = false := ⟨gen01_inv, exec_answers_next _ _, by decide, by decide, by decide⟩

/-- Two blocks that differ in the result bank and in OVR only. -/
theorem witness_OutcomeIsAFunctionOfGeneratorAndOperands :
    (pending seeded01 0x2).busy = true ∧ ({ pending seeded01 0x2 with ovr := true, res := Bank.zero.set 3 9 } : State).busy = true ∧
    (pending seeded01 0x2).gen = ({ pending seeded01 0x2 with ovr := true, res := Bank.zero.set 3 9 } : State).gen ∧
    (run .next64 (pending seeded01 0x2)).busy = false ∧ (run .next64 (pending seeded01 0x2)).ecode = .ok := by decide

end Sys2Proof.Tests
end

section
/-! The operand views of the scope family, as numbers (00_scope.md R13, R14). -/

namespace Sys2Proof.Machine

/-- P is D over C: the 256-bit view overlaps the two upper 128-bit ones (R14). -/
theorem State.opP_toNat (s : State) : s.opP.toNat = s.opD.toNat * 2 ^ 128 + s.opC.toNat := by
  have hP : s.opP.toNat =
      ((s.op.r7.toNat * 2 ^ 64 + s.op.r6.toNat) * 2 ^ 64 + s.op.r5.toNat) * 2 ^ 64 + s.op.r4.toNat :=
    append4_toNat _ _ _ _
  have hD : s.opD.toNat = s.op.r7.toNat * 2 ^ 64 + s.op.r6.toNat := append_toNat _ _
  have hC : s.opC.toNat = s.op.r5.toNat * 2 ^ 64 + s.op.r4.toNat := append_toNat _ _
  rw [hP, hD, hC]
  omega

/-- `s256val` (R13): two's complement, the sign being bit 255. -/
theorem toInt_eq_twosComplement (v : U256) :
    v.toInt = if v.toNat < 2 ^ 255 then (v.toNat : Int) else (v.toNat : Int) - 2 ^ 256 := by
  have hcond : 2 * v.toNat < 2 ^ 256 ↔ v.toNat < 2 ^ 255 := by omega
  exact v.toInt_eq_toNat_cond.trans (if_congr hcond rfl rfl)

/-- Settles O22: each 128-bit view is one append of two registers, P is D over C, and its signed reading is `s256val`. -/
theorem operandViewsAreTheNamedRegisters : Obligations.OperandViewsAreTheNamedRegisters := fun s =>
  ⟨append_toNat s.op.r1 s.op.r0, append_toNat s.op.r3 s.op.r2, append_toNat s.op.r5 s.op.r4,
    append_toNat s.op.r7 s.op.r6, s.opP_toNat, toInt_eq_twosComplement s.opP⟩

end Sys2Proof.Machine
end

section
/-! The window (10_state.md R22 to R36, R41, R42): the register map, what each register shows, the STATUS word bit by bit and as a
number, and what a host access leaves as it was. -/

namespace Sys2Proof.Machine

/-! ### The register map (R36) -/

theorem regAt_eq_some_iff (off : Nat) (r : Reg) : regAt off = some r ↔ r.offset = off :=
  ⟨regAt_eq_some, fun h => h ▸ regAt_offset r⟩

theorem offset_lt_windowSize (r : Reg) : r.offset < windowSize := by
  cases r with
  | op i => simp only [Reg.offset, windowSize]; omega
  | res i => simp only [Reg.offset, windowSize]; omega
  | _ => decide

/-- Settles O10: each row is `regAt_offset` of its register. -/
theorem registerMapIsOneToOne : Obligations.RegisterMapIsOneToOne := by
  refine ⟨⟨regAt_offset .id, regAt_offset .status, regAt_offset .cmd, fun i => regAt_offset (.op i),
    fun i => regAt_offset (.res i), regAt_offset .stateLo, regAt_offset .stateHi, regAt_offset .incLo,
    regAt_offset .incHi, regAt_offset .pos0, regAt_offset .pos1, regAt_offset .pos2, regAt_offset .pos3,
    regAt_offset .srecStateLo, regAt_offset .srecStateHi, regAt_offset .srecIncLo, regAt_offset .srecIncHi,
    regAt_offset .mulLo, regAt_offset .mulHi, regAt_offset .dxsmMul, regAt_offset .jumpLo, regAt_offset .jumpHi,
    regAt_offset .mulInvLo, regAt_offset .mulInvHi⟩, regAt_eq_some_iff, fun r => ⟨offset_mod r, offset_lt_windowSize r⟩⟩

/-! ### The wide registers in the window (R54) -/

theorem readReg_state (s : State) : (s.readReg .stateHi ++ s.readReg .stateLo : U128) = s.gen.state :=
  hi64_append_lo64 s.gen.state
theorem readReg_inc (s : State) : (s.readReg .incHi ++ s.readReg .incLo : U128) = s.gen.inc :=
  hi64_append_lo64 s.gen.inc
theorem readReg_pos (s : State) :
    (s.readReg .pos3 ++ s.readReg .pos2 ++ s.readReg .pos1 ++ s.readReg .pos0 : U256) = s.gen.pos :=
  words_append s.gen.pos
theorem readReg_srecState (s : State) : (s.readReg .srecStateHi ++ s.readReg .srecStateLo : U128) = s.gen.srecState :=
  hi64_append_lo64 s.gen.srecState
theorem readReg_srecInc (s : State) : (s.readReg .srecIncHi ++ s.readReg .srecIncLo : U128) = s.gen.srecInc :=
  hi64_append_lo64 s.gen.srecInc
theorem readReg_jump (s : State) : (s.readReg .jumpHi ++ s.readReg .jumpLo : U128) = s.jump :=
  hi64_append_lo64 s.jump
theorem readReg_mul (s : State) : (s.readReg .mulHi ++ s.readReg .mulLo : U128) = lcgMul :=
  hi64_append_lo64 lcgMul
theorem readReg_mulInv (s : State) : (s.readReg .mulInvHi ++ s.readReg .mulInvLo : U128) = lcgMulInv :=
  hi64_append_lo64 lcgMulInv

/-- Settles O11: the halves of a wide register put together are the register; the others are read as they are. -/
theorem windowShowsTheRegisters : Obligations.WindowShowsTheRegisters := fun s =>
  ⟨readReg_state s, readReg_inc s, readReg_pos s, readReg_srecState s, readReg_srecInc s, readReg_jump s, rfl, rfl,
    readReg_mul s, rfl, rfl, rfl, rfl, rfl, rfl, rfl, rfl, rfl, rfl, rfl, rfl, rfl, rfl, rfl, rfl, rfl⟩

/-- Settles O1: the reset state field by field, the wide constants by their halves. -/
theorem resetLeavesTheTableOfR41 : Obligations.ResetLeavesTheTableOfR41 :=
  ⟨rfl, rfl, rfl, rfl, rfl, rfl, rfl, rfl, Bank.zero_get, Bank.zero_get, rfl, rfl, rfl, rfl, rfl, rfl,
    readReg_mul State.reset, rfl, readReg_mulInv State.reset, readReg_jump State.reset⟩

/-! ### The STATUS word (R23 to R28) -/

/-- A concatenation as a number, the right part low. -/
theorem toNat_append_add {m n : Nat} (h : BitVec m) (l : BitVec n) : (h ++ l).toNat = h.toNat * 2 ^ n + l.toNat := by
  rw [BitVec.toNat_append, ← Nat.shiftLeft_add_eq_or_of_lt l.isLt, Nat.shiftLeft_eq]

/-- STATUS.ERR is set exactly by a code other than success (R26). -/
theorem err_eq_decide (s : State) : s.err = decide (s.ecode ≠ .ok) := by
  cases hc : s.ecode <;> simp [State.err, hc, ECode.code]

theorem statusWord_toNat (s : State) :
    s.statusWord.toNat = s.busy.toNat + 2 * s.seeded.toNat + 4 * s.err.toNat + 16 * s.ecode.code.toNat
      + 256 * s.ovr.toNat + 512 * s.ent.toNat := by
  simp only [State.statusWord, toNat_append_add, BitVec.toNat_ofBool, BitVec.ofNat_eq_ofNat, BitVec.toNat_ofNat]
  omega

/-- Settles O20, with ERR read as `ECODE ≠ 0`. -/
theorem statusWordLayout : Obligations.StatusWordLayout := by
  refine ⟨⟨rfl, rfl, rfl, rfl, rfl, rfl, rfl⟩, fun s => ?_⟩
  rw [← err_eq_decide]
  exact statusWord_toNat s

/-- The bits of the STATUS word that a flag or a 0 stands in, by place. -/
theorem statusWord_fields (s : State) :
    s.statusWord.toNat / 2 ^ 1 % 2 = s.seeded.toNat ∧ s.statusWord.toNat / 2 ^ 3 % 2 = 0 ∧
      s.statusWord.toNat / 2 ^ 8 % 2 = s.ovr.toNat ∧ s.statusWord.toNat / 2 ^ 9 % 2 = s.ent.toNat ∧
      s.statusWord.toNat < 2 ^ 10 := by
  have hcode := s.ecode.code.isLt
  have hbusy := s.busy.toNat_lt
  have hseeded := s.seeded.toNat_lt
  have herr := s.err.toNat_lt
  have hovr := s.ovr.toNat_lt
  have hent := s.ent.toNat_lt
  rw [statusWord_toNat]
  omega

/-- A bit read off the number. -/
theorem getLsbD_eq_of_toNat {v : Word} {k : Nat} {b : Bool} (h : v.toNat / 2 ^ k % 2 = b.toNat) : v.getLsbD k = b := by
  rw [BitVec.getLsbD, Nat.testBit_eq_decide_div_mod_eq, h]
  cases b <;> rfl

/-- STATUS bit 1 shows G.seeded (R25). -/
theorem status_seeded (s : State) : (s.readReg .status).getLsbD 1 = s.gen.seeded :=
  getLsbD_eq_of_toNat (statusWord_fields s).1

/-- STATUS bit 8 shows OVR (R27). -/
theorem status_ovr (s : State) : (s.readReg .status).getLsbD 8 = s.ovr := by
  obtain ⟨-, -, hovr, -⟩ := statusWord_fields s
  exact getLsbD_eq_of_toNat hovr

/-- STATUS bit 9 shows ENT (R28). -/
theorem status_ent (s : State) : (s.readReg .status).getLsbD 9 = s.ent := by
  obtain ⟨-, -, -, hent, -⟩ := statusWord_fields s
  exact getLsbD_eq_of_toNat hent

/-- The reserved bits of STATUS read 0 (R23, R42). -/
theorem status_reserved (s : State) (k : Nat) (hk : k = 3 ∨ 10 ≤ k) : (s.readReg .status).getLsbD k = false := by
  obtain ⟨-, hbit3, -, -, hlow⟩ := statusWord_fields s
  rcases hk with rfl | hk
  · exact getLsbD_eq_of_toNat hbit3
  · exact Nat.testBit_lt_two_pow (hlow.trans_le (Nat.pow_le_pow_right (by decide) hk))

/-! ### Host accesses -/

/-- The bus's answer and the events to come are not shown by any register. -/
@[simp] theorem readReg_reply_schedule (s : State) (v : Reply) (l : List Event) (r : Reg) :
    State.readReg { s with reply := v, schedule := l } r = s.readReg r := by
  cases r <;> rfl

@[simp] theorem readReg_reply (s : State) (v : Reply) (r : Reg) : State.readReg { s with reply := v } r = s.readReg r := by
  cases r <;> rfl

@[simp] theorem readReg_schedule (s : State) (l : List Event) (r : Reg) :
    State.readReg { s with schedule := l } r = s.readReg r := by
  cases r <;> rfl

/-- An 8-byte write at a register's offset is answered, with that register's effect `u`. -/
theorem step_write_reg {s u : State} {r : Reg} {v : Word} {rest : List Event}
    (h : s.schedule = .hostWrite r.offset 8 v :: rest) (hu : State.writeReg { s with schedule := rest } v r = u) :
    step s = .next { u with reply := .accepted } := by
  rw [step_write h, hostWrite_reg, hu]

theorem writeReg_readOnly (s : State) (v : Word) {r : Reg} (hc : r ≠ .cmd) (hs : r ≠ .status) (ho : ∀ i, r ≠ .op i) :
    s.writeReg v r = s := by
  cases r with
  | cmd => exact absurd rfl hc
  | status => exact absurd rfl hs
  | op i => exact absurd rfl (ho i)
  | _ => rfl

/-- A STATUS write clears OVR or leaves it, and touches nothing else (R27). -/
theorem writeReg_status (s : State) (v : Word) : s.writeReg v .status = { s with ovr := s.ovr && !v.getLsbD 8 } := by
  have h : s.writeReg v .status = if v.getLsbD 8 then { s with ovr := false } else s := rfl
  rw [h]
  cases v.getLsbD 8 <;> simp

theorem writeReg_op_idle (s : State) (i : Fin 8) (v : Word) (hb : s.busy = false) :
    s.writeReg v (.op i) = { s with op := s.op.set i v } := by
  simp [State.writeReg, hb]

theorem writeReg_cmd_busy (s : State) (v : Word) (hb : s.busy = true) : s.writeReg v .cmd = s.dropWrite := by
  simp [State.writeReg, hb]

theorem writeReg_op_busy (s : State) (i : Fin 8) (v : Word) (hb : s.busy = true) : s.writeReg v (.op i) = s.dropWrite := by
  simp [State.writeReg, hb]

theorem readReg_setOp_same (s : State) (i : Fin 8) (v : Word) :
    State.readReg { s with op := s.op.set i v } (.op i) = v := Bank.get_set_same s.op i v

theorem readReg_setOp_ne (s : State) (i : Fin 8) (v : Word) {r : Reg} (h : r ≠ .op i) :
    State.readReg { s with op := s.op.set i v } r = s.readReg r := by
  cases r with
  | op j => exact Bank.get_set_ne s.op i j v (fun hj => h (hj ▸ rfl))
  | _ => rfl

/-- Settles O16: an idle block stores the operand and nothing else. -/
theorem operandWriteStores : Obligations.OperandWriteStores := fun s i v rest hb hs => by
  refine ⟨_, step_write_reg (r := .op i) hs (writeReg_op_idle _ i v hb), ?_, fun r hr => ?_, rfl, rfl, rfl, rfl, rfl⟩
  · exact readReg_setOp_same s i v
  · rw [readReg_reply, readReg_setOp_ne _ _ _ hr, readReg_schedule]

/-- Settles O19: each write by its register's effect; a read leaves only the reply and the schedule changed. -/
theorem readOnlyRegistersIgnoreWrites : Obligations.ReadOnlyRegistersIgnoreWrites := by
  refine ⟨fun s r v rest hc hst ho hs => step_write_reg hs (writeReg_readOnly _ v hc hst ho),
    fun s v rest hs => step_write_reg (r := .status) hs (writeReg_status _ v), status_reserved,
    fun s t off size rest hs h r => ?_⟩
  rw [step_read hs] at h
  obtain ⟨r', -, -, rfl⟩ := hostRead_eq_next h
  exact readReg_reply_schedule s _ rest r

end Sys2Proof.Machine
end

section
/-! The step invariant (10_state.md R39, R40): what a step can do, said once by its event, and that each way keeps `State.Inv`. -/

namespace Sys2Proof.Machine

/-! ### What a step can do -/

/-- The ways a step can answer, with the schedule each leaves. -/
inductive Stepped (s t : State) : Prop where
  /-- The engine's turn, by default, while the host waits, or scheduled (R212). -/
  | engine (l : List Event) (hs : l = s.schedule ∨ s.schedule = .engine :: l)
      (h : State.engineTurn { s with schedule := l } = .next t)
  /-- A read, or the poll that ends a WAIT (R53, R81). -/
  | read (r : Reg) (rest : List Event)
      (hs : s.schedule = .hostRead r.offset 8 :: rest ∨ (s.schedule = .hostWait :: rest ∧ s.busy = false ∧ r = .status))
      (h : t = { s with reply := .data (s.readReg r), schedule := rest })
  /-- A write (R53). -/
  | write (r : Reg) (v : Word) (rest : List Event) (hs : s.schedule = .hostWrite r.offset 8 v :: rest)
      (h : t = { State.writeReg { s with schedule := rest } v r with reply := .accepted })
  /-- Hardware reset (R250). -/
  | hardwareReset (rest : List Event) (hs : s.schedule = .hardwareReset :: rest)
      (h : t = State.hardwareReset { s with schedule := rest })

theorem step_cases {s t : State} (h : step s = .next t) : Stepped s t := by
  cases hs : s.schedule with
  | nil => exact .engine s.schedule (.inl rfl) (step_nil hs ▸ h)
  | cons e rest =>
    cases e with
    | hostRead off size =>
      rw [step_read hs] at h
      obtain ⟨r, rfl, rfl, ht⟩ := hostRead_eq_next h
      rw [readReg_schedule] at ht
      exact .read r rest (.inl hs) ht
    | hostWrite off size v =>
      rw [step_write hs] at h
      obtain ⟨r, rfl, rfl, ht⟩ := hostWrite_eq_next h
      exact .write r v rest hs ht
    | hostWait =>
      cases hb : s.busy with
      | false =>
        rw [step_wait_idle hs hb] at h
        cases h
        exact .read .status rest (.inr ⟨hs, hb, rfl⟩) rfl
      | true => exact .engine s.schedule (.inl rfl) (step_wait_busy hs hb ▸ h)
    | hardwareReset => rw [step_hardwareReset hs] at h; cases h; exact .hardwareReset rest hs rfl
    | engine => exact .engine rest (.inr hs) (step_engine hs ▸ h)

/-! ### The generator's invariants -/

theorem Gen.reset_inv : Gen.reset.Inv where
  incOdd h := Bool.noConfusion h
  recordInc h := Bool.noConfusion h
  seek h := Bool.noConfusion h
  unseeded _ := rfl

/-- A generator at its seed point is 0 raw steps from it (R114). -/
theorem seedInit_inv (ss si : U128) : (seedInit ss si).Inv where
  incOdd _ := or_one_odd si
  recordInc _ := rfl
  seek _ := by
    have hpoint : (seedInit ss si).seedPoint = (seedInit ss si).state := by
      simp only [Gen.seedPoint, seedInit, BitVec.or_assoc, BitVec.or_self]
    rw [hpoint]
    exact Reaches.zero _ _
  unseeded h := Bool.noConfusion h

theorem importGen_inv (st increment : U128) (p : U256) : (importGen st increment p).Inv where
  incOdd _ := or_one_odd increment
  recordInc _ := rfl
  seek _ := importGen_reaches st increment p
  unseeded h := Bool.noConfusion h

/-- Raw steps, which the position counts, keep the invariants of a seeded generator. -/
theorem Moved.inv {g g' : Gen} (hm : Moved g g') (hs : g.seeded = true) (hg : g.Inv) : g'.Inv := by
  obtain ⟨d, hd, hpos, hinc, hrs, hri, hseeded⟩ := hm
  have hpoint : g'.seedPoint = g.seedPoint := by simp only [Gen.seedPoint, hrs, hri]
  refine ⟨fun _ => hinc ▸ hg.incOdd hs, fun _ => ?_, fun _ => ?_, fun h => ?_⟩
  · rw [hri, hinc, hg.recordInc hs]
  · rw [hinc, hpoint, hpos]; exact (hg.seek hs).trans hd
  · rw [hseeded, hs] at h; cases h

/-- Whatever a command leaves in the generator registers meets the invariants. -/
theorem GenAfter.inv {i : Instr} {s t : State} (ha : GenAfter i s t) (hg : s.gen.Inv) : t.gen.Inv := by
  cases ha with
  | same h => exact h ▸ hg
  | seeded _ ss si h => exact h ▸ seedInit_inv ss si
  | imported _ a b p h => exact h ▸ importGen_inv a b p
  | drawn _ hs h => exact h.inv hs hg
  | sought _ _ h => exact h.inv (seedInit_seeded _ _) (seedInit_inv _ _)

/-! ### The state's invariant -/

/-- The invariant reads only the generator, BUSY and the turn count. -/
theorem State.Inv.congr {s t : State} (hs : s.Inv) (hg : t.gen = s.gen) (hb : t.busy = s.busy)
    (hw : t.waited = s.waited) : t.Inv :=
  ⟨hg ▸ hs.gen, fun h => hw.trans (hs.idle (hb.symm.trans h))⟩

theorem State.Inv.withSchedule {s : State} (hs : s.Inv) (l : List Event) : State.Inv { s with schedule := l } :=
  hs.congr rfl rfl rfl

/-- A command's turn keeps BUSY, or clears it and the turn count. -/
theorem Ends.busy_or_idle {i : Instr} {s t : State} (he : Ends i s t) :
    t.busy = s.busy ∨ (t.busy = false ∧ t.waited = 0) := by
  cases he with
  | pending _ ht => exact .inl (ht ▸ rfl)
  | failed e c _ _ ht => exact .inr (ht ▸ ⟨rfl, rfl⟩)
  | succeeded e g r _ ht => exact .inr (ht ▸ ⟨rfl, rfl⟩)

theorem exec_keeps_inv {i : Instr} {s t : State} (hs : s.Inv) (hb : s.busy = true) (h : exec i s = .next t) : t.Inv where
  gen := (exec_gen h).inv hs.gen
  idle hidle := by
    rcases (exec_ends h).busy_or_idle with hbusy | ⟨-, hw⟩
    · rw [hbusy, hb] at hidle; cases hidle
    · exact hw

theorem engineTurn_keeps_inv {s t : State} (hs : s.Inv) (h : s.engineTurn = .next t) : t.Inv := by
  rcases engineTurn_cases h with ⟨-, rfl⟩ | ⟨hb, i, -, hi⟩ | ⟨-, -, rfl⟩
  · exact hs
  · exact exec_keeps_inv hs hb hi
  · exact ⟨hs.gen, fun _ => rfl⟩

theorem writeReg_keeps_inv {s : State} (hs : s.Inv) (v : Word) (r : Reg) : (s.writeReg v r).Inv := by
  rcases writeReg_cases s v r with ⟨h, -⟩ | ⟨h, -⟩ | ⟨i, h, -⟩ | ⟨h, -⟩ | h <;> rw [h]
  · exact hs.congr rfl rfl rfl
  · exact ⟨hs.gen, fun _ => rfl⟩
  · exact hs.congr rfl rfl rfl
  · exact hs.congr rfl rfl rfl
  · exact hs

theorem hardwareReset_inv (s : State) : s.hardwareReset.Inv := ⟨Gen.reset_inv, fun _ => rfl⟩

/-- Settles O52: each way a step can answer keeps the invariant. -/
theorem stepKeepsTheInvariant : Obligations.StepKeepsTheInvariant := fun s t hs h => by
  cases step_cases h with
  | engine l _ h => exact engineTurn_keeps_inv (hs.withSchedule l) h
  | read r rest _ h => exact hs.congr (h ▸ rfl) (h ▸ rfl) (h ▸ rfl)
  | write r v rest _ h =>
    exact (writeReg_keeps_inv (hs.withSchedule rest) v r).congr (h ▸ rfl) (h ▸ rfl) (h ▸ rfl)
  | hardwareReset rest _ h => exact h ▸ hardwareReset_inv _

/-- Settles O53: the reset generator is the unseeded one, and no turn has been counted. -/
theorem resetHasTheInvariant : Obligations.ResetHasTheInvariant := ⟨Gen.reset_inv, fun _ => rfl⟩

end Sys2Proof.Machine
end

section
/-! What a command may write (10_state.md R25, R27, R29, R30, R33 to R35): the frames of all sixteen commands. -/

namespace Sys2Proof.Machine

/-! ### What no command writes -/

/-- No command writes an operand, CMD, OVR, a parameter or the host's side. -/
theorem Ends.frame {i : Instr} {s t : State} (he : Ends i s t) :
    t.op = s.op ∧ t.cmd = s.cmd ∧ t.ovr = s.ovr ∧ t.ent = s.ent ∧ t.jump = s.jump ∧ t.reply = s.reply ∧
      t.schedule = s.schedule := by
  cases he with
  | pending _ ht => rw [ht]; exact ⟨rfl, rfl, rfl, rfl, rfl, rfl, rfl⟩
  | failed e c he _ ht => rw [ht]; rcases he with rfl | ⟨-, rfl⟩ <;> exact ⟨rfl, rfl, rfl, rfl, rfl, rfl, rfl⟩
  | succeeded e g r he ht => rw [ht]; rcases he with rfl | ⟨-, rfl⟩ <;> exact ⟨rfl, rfl, rfl, rfl, rfl, rfl, rfl⟩

/-- Settles O58, by how a command's turn ends. -/
theorem noCommandWritesOperandsOrCmd : Obligations.NoCommandWritesOperandsOrCmd :=
  fun _ _ _ h => (exec_ends h).frame

/-- Settles O18: the writes by the effect of the register they reach, the commands by their common frame. -/
theorem ovrIsStickyUntilWrittenOne : Obligations.OvrIsStickyUntilWrittenOne := by
  refine ⟨fun s off v rest hb hoff hs => ?_, fun s v rest hs => ?_, fun i s t h => ?_⟩
  · rcases hoff with rfl | ⟨i, rfl⟩
    · exact ⟨_, step_write_reg (r := .cmd) hs (writeReg_cmd_busy _ v hb), rfl⟩
    · exact ⟨_, step_write_reg (r := .op i) hs (writeReg_op_busy _ i v hb), rfl⟩
  · exact ⟨_, step_write_reg (r := .status) hs (writeReg_status _ v), rfl⟩
  · obtain ⟨-, -, hovr, -⟩ := (exec_ends h).frame
    exact hovr

/-! ### The lists of written registers -/

theorem written_of_seeds {i : Instr} : i.seeds = true → i.written = generatorRegs := by
  cases i <;> decide

/-- A command that writes one register of G.state and G.pos writes them all. -/
theorem stateAndPos_subset_written {i : Instr} : Reg.stateLo ∈ i.written → ∀ r ∈ stateAndPosRegs, r ∈ i.written := by
  cases i <;> decide

/-! ### G.seeded -/

/-- A command keeps G.seeded, or it is a seeding command that sets it (R25). -/
theorem GenAfter.seeded_cases {i : Instr} {s t : State} (ha : GenAfter i s t) :
    t.gen.seeded = s.gen.seeded ∨ (i.seeds = true ∧ t.gen.seeded = true) := by
  cases ha with
  | same h => exact .inl (h ▸ rfl)
  | seeded hi ss si h => exact .inr ⟨hi, h ▸ rfl⟩
  | imported hi a b p h => exact .inr ⟨hi, h ▸ rfl⟩
  | drawn _ _ h => obtain ⟨_, -, -, -, -, -, hseeded⟩ := h; exact .inl hseeded
  | sought _ hs h => obtain ⟨_, -, -, -, -, -, hseeded⟩ := h; exact .inl (hseeded.trans hs.symm)

theorem exec_seeded_of_success {i : Instr} {s t : State} (hi : i.seeds = true) (hb : s.busy = true)
    (h : exec i s = .next t) (hidle : t.busy = false) (hok : t.ecode = .ok) : t.gen.seeded = true := by
  cases i <;> cases hi
  case seedPair => cases h; rfl
  case seedState => cases h; rfl
  case importRecord => cases h; rfl
  case seedEntropy =>
    simp only [exec, execSeedEntropy] at h
    split at h
    · split at h <;> cases h
      · rfl
      · cases hok
      · exact absurd (hb.symm.trans hidle) (by decide)
    · cases h; cases hok

/-- E_UNSEEDED comes first and writes nothing else (R25, R221). -/
theorem exec_unseeded {i : Instr} (s : State) (hi : i.needsSeeded = true) (hs : s.gen.seeded = false) :
    exec i s = .next (s.fail .unseeded) := by
  have hcommit (x : Except ECode (Gen × Bank)) : s.commit (s.ifSeeded x) = s.fail .unseeded := by
    rw [State.ifSeeded_of_unseeded s x hs, State.commit_error]
  cases i <;> cases hi
  case bounded => simp [exec, execBounded, hs]
  all_goals simp only [exec, execNext64, execNextF64, execAdvance, execSeek, execReset, execJumped, hcommit]

/-- Settles O56: what can happen to G.seeded is `GenAfter.seeded_cases`. -/
theorem seededIsSetBySeedingOnly : Obligations.SeededIsSetBySeedingOnly := by
  refine ⟨rfl, status_seeded, fun i s t hb h hi hidle hok => exec_seeded_of_success hi hb h hidle hok,
    fun i s t h hs => ?_, fun i s t h hs ht => ?_, fun i s hi hs => exec_unseeded s hi hs⟩
  · rcases (exec_gen h).seeded_cases with hsame | ⟨-, ht⟩
    · exact hsame.trans hs
    · exact ht
  · rcases (exec_gen h).seeded_cases with hsame | ⟨hi, -⟩
    · exact absurd ((ht.symm.trans hsame).trans hs) (by decide)
    · exact hi

/-! ### The generator registers -/

theorem writeReg_gen (s : State) (v : Word) (r : Reg) : (s.writeReg v r).gen = s.gen := by
  rcases writeReg_cases s v r with ⟨h, -⟩ | ⟨h, -⟩ | ⟨i, h, -⟩ | ⟨h, -⟩ | h <;> rw [h] <;> rfl

/-- SEEK and RESET seed again from the record, which under the invariants holds the increment already. -/
theorem Gen.Inv.srecInc_or_one {g : Gen} (hg : g.Inv) (hs : g.seeded = true) : g.srecInc ||| 1 = g.inc := by
  rw [hg.recordInc hs, or_one_of_odd _ (hg.incOdd hs)]

/-- A command that does not seed keeps the increment and the seed record (R30, R32). -/
theorem GenAfter.inc_and_record_eq {i : Instr} {s t : State} (ha : GenAfter i s t) (hg : s.gen.Inv)
    (hi : i.seeds = false) :
    t.gen.inc = s.gen.inc ∧ t.gen.srecState = s.gen.srecState ∧ t.gen.srecInc = s.gen.srecInc := by
  cases ha with
  | same h => rw [h]; exact ⟨rfl, rfl, rfl⟩
  | seeded hi' | imported hi' => rw [hi] at hi'; cases hi'
  | drawn _ _ h => obtain ⟨_, -, -, hinc, hrs, hri, -⟩ := h; exact ⟨hinc, hrs, hri⟩
  | sought _ hs h =>
    obtain ⟨_, -, -, hinc, hrs, hri, -⟩ := h
    rw [seedInit_inc, hg.srecInc_or_one hs] at hinc
    rw [seedInit_srecState] at hrs
    rw [seedInit_srecInc, hg.srecInc_or_one hs, ← hg.recordInc hs] at hri
    exact ⟨hinc, hrs, hri⟩

/-- A command whose rule does not name G.state leaves the whole generator as it was. -/
theorem GenAfter.gen_eq {i : Instr} {s t : State} (ha : GenAfter i s t) (hi : Reg.stateLo ∉ i.written) :
    t.gen = s.gen := by
  cases ha with
  | same h => exact h
  | seeded hseeds | imported hseeds => rw [written_of_seeds hseeds] at hi; exact absurd (by decide) hi
  | drawn hdraws => rcases hdraws with rfl | rfl | rfl | rfl <;> exact absurd (by decide) hi
  | sought hseeks => rcases hseeks with rfl | rfl <;> exact absurd (by decide) hi

/-- Settles O57: of the ways to step only reset and a seeding command reach the increment. -/
theorem onlySeedingWritesTheIncrement : Obligations.OnlySeedingWritesTheIncrement := by
  refine ⟨fun s t hg h hne => ?_, fun i s t hi h => (exec_gen h).gen_eq ?_⟩
  · cases step_cases h with
    | engine l _ h =>
      rcases engineTurn_cases h with ⟨-, rfl⟩ | ⟨hb, i, hd, hexec⟩ | ⟨-, -, rfl⟩
      · exact absurd rfl hne
      · refine .inr ⟨hb, i, hd, ?_⟩
        by_contra hi
        obtain ⟨hinc, -⟩ := (exec_gen hexec).inc_and_record_eq hg (Bool.eq_false_of_not_eq_true hi)
        exact hne hinc
      · exact absurd rfl hne
    | read r rest _ h => exact absurd (h ▸ rfl) hne
    | write r v rest _ h => exact absurd (h ▸ congrArg Gen.inc (writeReg_gen _ v r)) hne
    | hardwareReset rest hs _ => exact .inl ⟨rest, hs⟩
  · simp only [List.mem_cons, List.not_mem_nil, or_false] at hi
    rcases hi with rfl | rfl | rfl | rfl | rfl | rfl <;> decide

/-! ### The result bank -/

theorem Bank.get_setR (b : Bank) (v : U128) (j : Fin 8) (h0 : j ≠ 0) (h1 : j ≠ 1) : (b.setR v).get j = b.get j :=
  match j with
  | 0 => absurd rfl h0
  | 1 => absurd rfl h1
  | 2 | 3 | 4 | 5 | 6 | 7 => rfl

theorem Bank.get_setAffine (b : Bank) (a : Affine) (j : Fin 8) (h : 4 ≤ j) : (b.setAffine a).get j = b.get j :=
  match j with
  | 0 | 1 | 2 | 3 => absurd h (by decide)
  | 4 | 5 | 6 | 7 => rfl

/-- A commit leaves a result register as it was when every success does (R213). -/
theorem commit_res_get {s : State} {x : Except ECode (Gen × Bank)} {j : Fin 8}
    (hx : ∀ g r, x = .ok (g, r) → r.get j = s.res.get j) : (s.commit x).res.get j = s.res.get j := by
  cases x with
  | error c => rfl
  | ok gr => exact hx gr.1 gr.2 rfl

theorem drawInto_res_get {s : State} {f : Word → Word} {g : Gen} {r : Bank} {j : Fin 8} (hj : j ≠ 0)
    (h : drawInto s f = .ok (g, r)) : r.get j = s.res.get j := by
  obtain ⟨_, -, hr⟩ := map_eq_ok h
  cases hr
  exact Bank.get_set_ne _ _ _ _ hj

theorem jumped_writes_every_result : ∀ j : Fin 8, Reg.res j ∈ Instr.written .jumped := by decide

/-- Every command leaves the result registers its rule does not name as they were (R34). -/
theorem exec_res_get {i : Instr} {s t : State} (h : exec i s = .next t) {j : Fin 8} (hj : Reg.res j ∉ i.written) :
    t.res.get j = s.res.get j := by
  have hne (k : Fin 8) (hk : Reg.res k ∈ i.written) : j ≠ k := by
    rintro rfl
    exact hj hk
  cases i <;> simp only [exec] at h
  case nop | seedPair | seedState | importRecord => cases h; rfl
  case seedEntropy =>
    unfold execSeedEntropy at h
    split at h
    · split at h <;> cases h <;> rfl
    · cases h; rfl
  case next64 | nextF64 =>
    cases h
    exact commit_res_get fun g r hx => drawInto_res_get (hne 0 (by decide)) (ifSeeded_ok hx).2
  case bounded =>
    unfold execBounded at h
    split at h
    · split at h
      · cases h; rfl
      · split at h <;> cases h
        · exact Bank.get_set_ne _ _ _ _ (hne 0 (by decide))
        · rfl
        · rfl
    · cases h; rfl
  case advance | seek =>
    cases h
    refine commit_res_get fun g r hx => ?_
    obtain ⟨_, -, hr⟩ := map_eq_ok (ifSeeded_ok hx).2
    cases hr
    rfl
  case reset =>
    cases h
    refine commit_res_get fun g r hx => ?_
    have hr := (ifSeeded_ok hx).2
    rw [← (Prod.mk.inj (Except.ok.inj hr)).2]
  case jumped => exact absurd (jumped_writes_every_result j) hj
  case inv =>
    cases h
    refine commit_res_get fun g r hx => ?_
    split at hx <;> cases hx
    exact Bank.get_setR _ _ _ (hne 0 (by decide)) (hne 1 (by decide))
  case affPow | affComp =>
    cases h
    have h4 : 4 ≤ j := by
      have h0 := hne 0 (by decide)
      have h1 := hne 1 (by decide)
      have h2 := hne 2 (by decide)
      have h3 := hne 3 (by decide)
      omega
    exact Bank.get_setAffine _ _ _ h4
  case dxsm => cases h; exact Bank.get_set_ne _ _ _ _ (hne 0 (by decide))

/-! ### The frame of every command -/

/-- A seeding command names every generator register, so one that leaves any of them out does not seed. -/
theorem seeds_eq_false_of_notMem_written {i : Instr} {r : Reg} (hr : r ∈ generatorRegs) (hw : r ∉ i.written) :
    i.seeds = false := by
  by_contra hi
  rw [written_of_seeds (Bool.eq_true_of_not_eq_false hi)] at hw
  exact hw hr

/-- Every register but STATUS that the command's rule does not name reads as before (R212, R213). -/
theorem exec_readReg {i : Instr} {s t : State} (hg : s.gen.Inv) (h : exec i s = .next t) {r : Reg} (hst : r ≠ .status)
    (hw : r ∉ i.written) : t.readReg r = s.readReg r := by
  obtain ⟨hop, hcmd, -, -, hjump, -⟩ := (exec_ends h).frame
  have hgen (hr : r ∈ stateAndPosRegs) : t.gen = s.gen :=
    (exec_gen h).gen_eq fun hlo => hw (stateAndPos_subset_written hlo r hr)
  have hrec (hr : r ∈ generatorRegs) := (exec_gen h).inc_and_record_eq hg (seeds_eq_false_of_notMem_written hr hw)
  cases r with
  | status => exact absurd rfl hst
  | cmd => exact hcmd
  | op i => simp only [State.readReg, hop]
  | res j => exact exec_res_get h hw
  | stateLo | stateHi | pos0 | pos1 | pos2 | pos3 => simp only [State.readReg, hgen (by decide)]
  | incLo | incHi | srecStateLo | srecStateHi | srecIncLo | srecIncHi =>
    obtain ⟨hinc, hrs, hri⟩ := hrec (by decide)
    simp only [State.readReg, hinc, hrs, hri]
  | jumpLo | jumpHi => simp only [State.readReg, hjump]
  | id | mulLo | mulHi | dxsmMul | mulInvLo | mulInvHi => rfl

/-- Settles O59: the window by `exec_readReg`, STATUS bit by bit. -/
theorem commandsWriteOnlyTheNamedRegisters : Obligations.CommandsWriteOnlyTheNamedRegisters := by
  intro i s t hg h
  obtain ⟨-, -, hovr, hent, -⟩ := (exec_ends h).frame
  rw [status_ovr, status_ovr, status_ent, status_ent, status_seeded, status_seeded]
  refine ⟨fun r hst hw => exec_readReg hg h hst hw, hovr, hent, fun hi => ?_⟩
  rcases (exec_gen h).seeded_cases with hsame | ⟨hseeds, -⟩
  · exact hsame
  · exact absurd (hi.symm.trans hseeds) (by decide)

end Sys2Proof.Machine
end

section
/-! The bus (20_memory.md R51 to R53): which accesses it accepts, what a step does with an accepted and a refused one, and what a read
leaves as it was. -/

namespace Sys2Proof.Machine

/-! ### Which accesses the bus accepts -/

/-- The offsets that R36 lists: the multiples of 8 below 0x138, without the hole at 0x018. -/
theorem exists_offset_eq_iff (off : Nat) : (∃ r : Reg, r.offset = off) ↔ off % 8 = 0 ∧ off ≠ 0x018 ∧ off < 0x138 := by
  constructor
  · rintro ⟨r, rfl⟩
    refine ⟨offset_mod r, ?_⟩
    cases r with
    | op i => simp only [Reg.offset]; omega
    | res i => simp only [Reg.offset]; omega
    | _ => decide
  · rintro ⟨hmod, hhole, hlt⟩
    have hlisted : ∀ k < 39, k ≠ 3 → (regAt (8 * k)).isSome := by decide
    obtain ⟨r, hr⟩ := Option.isSome_iff_exists.mp (hlisted (off / 8) (by omega) (by omega))
    exact ⟨r, (regAt_eq_some hr).trans (by omega)⟩

/-- `checkAccess_eq_ok` and its converse. -/
theorem checkAccess_eq_ok_iff {off size : Nat} {r : Reg} :
    checkAccess off size = .ok r ↔ size = 8 ∧ r.offset = off :=
  ⟨checkAccess_eq_ok, fun ⟨hsize, hoff⟩ => hsize ▸ hoff ▸ checkAccess_offset r⟩

/-- The bus accepts every access but those of R51 and R52. -/
theorem exists_checkAccess_eq_ok_iff (off size : Nat) :
    (∃ r, checkAccess off size = .ok r) ↔ ¬ (size ≠ 8 ∨ off % 8 ≠ 0 ∨ off = 0x018 ∨ 0x138 ≤ off) := by
  simp only [checkAccess_eq_ok_iff, exists_and_left, exists_offset_eq_iff]
  omega

/-! ### What a step does with an access -/

section Access

variable {s : State} {rest : List Event} {off size : Nat} {v : Word}

/-- A refused access, read or written, is a fault of the host's step (R51). -/
theorem step_access_refused {f : Fault}
    (hs : s.schedule = .hostRead off size :: rest ∨ s.schedule = .hostWrite off size v :: rest)
    (hc : checkAccess off size = .error f) : step s = .fault f := by
  rcases hs with hs | hs
  · simp only [step_read hs, State.hostRead, hc]
  · simp only [step_write hs, State.hostWrite, hc]

/-- An accepted access, read or written, answers a next state (R53). -/
theorem step_access_accepted {r : Reg}
    (hs : s.schedule = .hostRead off size :: rest ∨ s.schedule = .hostWrite off size v :: rest)
    (hc : checkAccess off size = .ok r) : ∃ t, step s = .next t := by
  obtain ⟨rfl, rfl⟩ := checkAccess_eq_ok hc
  rcases hs with hs | hs
  · exact ⟨_, (step_read hs).trans (hostRead_reg _ r)⟩
  · exact ⟨_, step_write_reg hs rfl⟩

end Access

/-- Settles O14, by what the bus answers: it accepts exactly the listed accesses, and the step follows its answer. -/
theorem busRefusesExactlyTheUnlistedAccesses : Obligations.BusRefusesExactlyTheUnlistedAccesses := by
  intro s rest off size v hs
  cases hc : checkAccess off size with
  | ok r =>
    have hlisted := (exists_checkAccess_eq_ok_iff off size).mp ⟨r, hc⟩
    exact ⟨fun hunlisted => absurd hunlisted hlisted, fun _ => step_access_accepted hs hc⟩
  | error f =>
    refine ⟨fun _ => ⟨f, step_access_refused hs hc⟩, fun hlisted => ?_⟩
    obtain ⟨r, hr⟩ := (exists_checkAccess_eq_ok_iff off size).mpr hlisted
    cases hc.symm.trans hr

/-! ### Reads -/

/-- Settles O13: a read at a register's offset answers with the reply, and taking the event off the schedule changes no register. -/
theorem readHasNoSideEffect : Obligations.ReadHasNoSideEffect := fun s r rest hs => by
  rw [step_read hs, hostRead_reg, readReg_schedule]

end Sys2Proof.Machine
end

section
/-! The command words (30_encoding.md R70 to R76, R81): the decoder's inversion lemmas, what it accepts and rejects, and how a rejected
word and a WAIT run. -/

namespace Sys2Proof.Machine

/-! ### What the decoder accepts (R72, R76) -/

/-- Every command's own round-trip lemma, for all of them at once. -/
theorem roundTrip : ∀ i, Laws.RoundTrip.Statement i
  | .nop => Laws.RoundTrip.nop
  | .seedPair => Laws.RoundTrip.seedPair
  | .seedState => Laws.RoundTrip.seedState
  | .seedEntropy => Laws.RoundTrip.seedEntropy
  | .next64 => Laws.RoundTrip.next64
  | .nextF64 => Laws.RoundTrip.nextF64
  | .bounded => Laws.RoundTrip.bounded
  | .advance => Laws.RoundTrip.advance
  | .seek => Laws.RoundTrip.seek
  | .reset => Laws.RoundTrip.reset
  | .jumped => Laws.RoundTrip.jumped
  | .importRecord => Laws.RoundTrip.importRecord
  | .inv => Laws.RoundTrip.inv
  | .affPow => Laws.RoundTrip.affPow
  | .affComp => Laws.RoundTrip.affComp
  | .dxsm => Laws.RoundTrip.dxsm

@[simp] theorem decode_encode (i : Instr) : decode (encode i) = .ok i := (roundTrip i).1

theorem decodeSeed_eq_ok {m : BitVec 2} {i : Instr} (h : decodeSeed m = .ok i) : i.op = 0x01 ∧ i.smode = m := by
  unfold decodeSeed at h
  split at h <;> cases h
  all_goals exact ⟨rfl, BitVec.eq_of_toNat_eq (Eq.symm ‹m.toNat = _›)⟩

theorem decodeOp_eq_ok {op : BitVec 8} {i : Instr} (h : decodeOp op = .ok i) : i.op = op ∧ i.smode = 0 := by
  unfold decodeOp at h
  split at h <;> cases h
  all_goals exact ⟨BitVec.eq_of_toNat_eq (Eq.symm ‹op.toNat = _›), rfl⟩

/-- A word that decodes has the command's own fields, and no reserved bit. -/
theorem decode_eq_ok {w : Word} {i : Instr} (h : decode w = .ok i) :
    rsvField w = 0 ∧ smodeField w = i.smode ∧ opField w = i.op := by
  unfold decode at h
  split_ifs at h with hrsv hseed hmode
  · obtain ⟨hop, hsmode⟩ := decodeSeed_eq_ok h
    exact ⟨not_not.mp hrsv, hsmode.symm, hseed.trans hop.symm⟩
  · obtain ⟨hop, hsmode⟩ := decodeOp_eq_ok h
    exact ⟨not_not.mp hrsv, (not_not.mp hmode).trans hsmode.symm, hop.symm⟩

/-- Settles O4: a word is put together from its three fields, and decoding fixes all three. -/
theorem decodeAcceptsExactlyTheEncodings : Obligations.DecodeAcceptsExactlyTheEncodings := by
  refine fun w i => ⟨fun h => BitVec.eq_of_toNat_eq ?_, fun h => h ▸ decode_encode i⟩
  obtain ⟨hrsv, hsmode, hop⟩ := decode_eq_ok h
  rw [word_fields, encode_toNat, hrsv, hsmode, hop, BitVec.ofNat_eq_ofNat, BitVec.toNat_ofNat, Nat.zero_mod, zero_mul, zero_add]

/-- Settles O3: each word written out is its command's encoding. -/
theorem commandWordsDecode : Obligations.CommandWordsDecode :=
  ⟨decode_encode .nop, decode_encode .seedPair, decode_encode .seedState, decode_encode .seedEntropy, decode_encode .next64,
    decode_encode .nextF64, decode_encode .bounded, decode_encode .advance, decode_encode .seek, decode_encode .reset,
    decode_encode .jumped, decode_encode .importRecord, decode_encode .inv, decode_encode .affPow, decode_encode .affComp,
    decode_encode .dxsm⟩

/-! ### What the decoder rejects (R74) -/

theorem decodeSeed_eq_error {m : BitVec 2} {e : Illegal} (h : decodeSeed m = .error e) : m = 3 := by
  unfold decodeSeed at h
  split at h <;> cases h
  simp only [imp_false] at *
  exact BitVec.eq_of_toNat_eq (show m.toNat = 3 by omega)

theorem decodeOp_eq_error {op : BitVec 8} {e : Illegal} (h : decodeOp op = .error e) : op = 0x01 ∨ 0x0E ≤ op.toNat := by
  by_cases hone : op.toNat = 1
  · exact .inl (BitVec.eq_of_toNat_eq hone)
  · unfold decodeOp at h
    split at h <;> cases h
    simp only [imp_false] at *
    omega

/-- R74's conditions, as the model's four checks say them. -/
theorem CmdWord.wf_eq_false_iff (c : CmdWord) : c.wf = false ↔
    c.rsv ≠ 0 ∨ 0x0E ≤ c.op.toNat ∨ (c.op = 0x01 ∧ c.smode = 3) ∨ (c.op ≠ 0x01 ∧ c.smode ≠ 0) := by
  simp only [CmdWord.wf, CmdWord.rsvIsZero, CmdWord.opIsDefined, CmdWord.seedModeIsDefined, CmdWord.modeOnlyForSeed,
    Bool.and_eq_false_iff, Bool.or_eq_false_iff, Bool.not_eq_false', Bool.and_eq_true, beq_eq_false_iff_ne, beq_iff_eq,
    decide_eq_false_iff_not, not_lt, or_assoc, ne_eq]

/-- A rejected word fails one of R74's four checks. -/
theorem decode_eq_error {w : Word} {e : Illegal} (h : decode w = .error e) : (cmdWordOf w).wf = false := by
  rw [CmdWord.wf_eq_false_iff]
  unfold decode at h
  split_ifs at h with hrsv hseed hmode
  · exact .inl hrsv
  · exact .inr (.inr (.inl ⟨hseed, decodeSeed_eq_error h⟩))
  · exact .inr (.inr (.inr ⟨hseed, hmode⟩))
  · exact .inr (.inl ((decodeOp_eq_error h).resolve_left hseed))

/-- The decoder's verdict is the model's check of the word's fields. -/
theorem decode_rejects_iff (w : Word) : (∀ i, decode w ≠ .ok i) ↔ (cmdWordOf w).wf = false := by
  cases hd : decode w with
  | ok i =>
    have hwf : (cmdWordOf w).wf = true := (decodeAcceptsExactlyTheEncodings w i).mp hd ▸ (roundTrip i).2
    simp [hwf]
  | error e => simp [decode_eq_error hd]

/-- R74's conditions on the word as a number. -/
theorem wf_eq_false_iff_toNat (w : Word) : (cmdWordOf w).wf = false ↔
    (w.toNat / 2 ^ 10 ≠ 0 ∨ 0x0E ≤ w.toNat % 2 ^ 8 ∨
      (w.toNat % 2 ^ 8 = 1 ∧ w.toNat / 2 ^ 8 % 4 = 3) ∨ (w.toNat % 2 ^ 8 ≠ 1 ∧ w.toNat / 2 ^ 8 % 4 ≠ 0)) := by
  have hop : (opField w).toNat = w.toNat % 2 ^ 8 := BitVec.extractLsb'_toNat ..
  have hsmode : (smodeField w).toNat = w.toNat / 2 ^ 8 % 4 := by
    rw [smodeField, BitVec.extractLsb'_toNat, Nat.shiftRight_eq_div_pow]
  have hrsv : (rsvField w).toNat = w.toNat / 2 ^ 10 := by
    rw [rsvField, BitVec.extractLsb'_toNat, Nat.shiftRight_eq_div_pow]
    omega
  rw [CmdWord.wf_eq_false_iff, cmdWordOf, ← hrsv, ← hop, ← hsmode]
  simp only [ne_eq, ← BitVec.toNat_inj]
  rfl

/-! ### A rejected word in CMD (R74, R211, R213) -/

theorem writeReg_cmd_idle (s : State) (w : Word) (hb : s.busy = false) : s.writeReg w .cmd = s.issue w := by
  simp [State.writeReg, hb]

/-- The engine's turn on a rejected word fails with E_ILLEGAL, whichever of R74's conditions it meets. -/
theorem engineTurn_rejected {s : State} (hd : ∀ i, decode s.cmd ≠ .ok i) (hb : s.busy = true) :
    s.engineTurn = .next (s.fail .illegal) := by
  cases hc : decode s.cmd with
  | ok i => exact absurd hc (hd i)
  | error e => exact engineTurn_illegal s e hb hc

/-- Settles O5: the decoder rejects what R74's checks refuse, and each of the three turns is the engine's turn on a rejected word. -/
theorem illegalWordsCompleteWithEIllegal : Obligations.IllegalWordsCompleteWithEIllegal := by
  refine ⟨fun w => (decode_rejects_iff w).trans (wf_eq_false_iff_toNat w), fun s w rest _ hb hs => ?_,
    fun s hd hb => ⟨fun hs => ?_, fun rest hs => ?_, fun rest hs => ?_⟩, rfl⟩
  · exact step_write_reg (r := .cmd) hs (writeReg_cmd_idle _ w hb)
  · exact (step_nil hs).trans (engineTurn_rejected hd hb)
  · exact (step_engine hs).trans (engineTurn_rejected hd hb)
  · exact (step_wait_busy hs hb).trans (engineTurn_rejected hd hb)

/-! ### WAIT (R81) -/

/-- An engine's turn consumes no event and answers no access. -/
theorem engineTurn_frame {s t : State} (h : s.engineTurn = .next t) : t.schedule = s.schedule ∧ t.reply = s.reply := by
  rcases engineTurn_cases h with ⟨-, rfl⟩ | ⟨-, i, -, hexec⟩ | ⟨-, -, rfl⟩
  · exact ⟨rfl, rfl⟩
  · obtain ⟨-, -, -, -, -, hreply, hschedule⟩ := (exec_ends hexec).frame
    exact ⟨hschedule, hreply⟩
  · exact ⟨rfl, rfl⟩

/-- Settles O8: an idle poll reads STATUS, a busy one is the engine's turn. -/
theorem waitEndsAtTheFirstIdlePoll : Obligations.WaitEndsAtTheFirstIdlePoll := fun _ _ hs =>
  ⟨step_wait_idle hs, fun hb _ ht => engineTurn_frame ((step_wait_busy hs hb).symm.trans ht)⟩

end Sys2Proof.Machine
end

section
/-! The arithmetic of 40_arith.md on numbers: MULINV (R104), the DXSM permutation (R106), the binary64 pattern of F64 (R116), moves of
the generator by a signed number of steps (R118), and the period of the LCG (R117). -/

namespace Sys2Proof.Machine

/-! ### MULINV (R104) -/

/-- MULINV is what the Newton iteration of R130 makes of MUL. -/
theorem modInv_lcgMul : modInv lcgMul = lcgMulInv := by decide

/-- MULINV is the only inverse of MUL. -/
theorem lcgMul_mul_eq_one_iff (v : U128) : lcgMul * v = 1 ↔ v = lcgMulInv := by
  constructor
  · intro h
    calc v = lcgMulInv * lcgMul * v := by rw [lcgMulInv_mul_lcgMul, one_mul]
      _ = lcgMulInv := by rw [mul_assoc, h, mul_one]
  · rintro rfl
    exact lcgMul_mul_lcgMulInv

/-- Settles O12: the value is computed, and an inverse is unique. -/
theorem mulInvIsTheInverseOfMul : Obligations.MulInvIsTheInverseOfMul := by
  refine ⟨modInv_lcgMul, fun s => ?_⟩
  rw [readReg_mulInv, readReg_mul]
  exact ⟨rfl, lcgMul_mul_eq_one_iff⟩

/-! ### The DXSM permutation (R106) -/

/-- A xorshift stage on numbers: the shift is logical. -/
theorem xorShift_toNat (h : Word) (n : Nat) : (h ^^^ h >>> n).toNat = h.toNat ^^^ h.toNat / 2 ^ n := by
  rw [BitVec.toNat_xor, BitVec.toNat_ushiftRight, Nat.shiftRight_eq_div_pow]

/-- The multiplication stage on numbers. -/
theorem mul_dxsmMul_toNat (h : Word) : (h * dxsmMul).toNat = h.toNat * 0xDA942042E4DD58B5 % 2 ^ 64 := by
  rw [BitVec.toNat_mul, dxsmMul_toNat]

/-- Every stage maps a high half of 0 to 0. -/
theorem dxsmPermute_of_hi64_eq_zero {s : U128} (h : hi64 s = 0) : dxsmPermute s = 0 := by
  simp [dxsmPermute, h]

/-- Settles O28: each stage read as a number, the last one first. -/
theorem dxsmPermutationOnNumbers : Obligations.DxsmPermutationOnNumbers := by
  intro s hi lo h1 h2 h3 hhi hlo hh1 hh2 hh3
  have hone : (1 : Word).toNat = 1 := rfl
  constructor
  · rw [dxsmPermute, BitVec.toNat_mul, xorShift_toNat, mul_dxsmMul_toNat, xorShift_toNat, BitVec.toNat_or, hone, hi64_toNat,
      lo64_toNat, ← hhi, ← hlo, ← hh1, ← hh2, ← hh3]
  · intro hzero
    exact dxsmPermute_of_hi64_eq_zero (BitVec.eq_of_toNat_eq ((hi64_toNat s).trans (hhi.symm.trans hzero)))

/-! ### F64 (R116) -/

/-- The value of a normal, non-negative pattern, by its exponent and fraction fields (G1). -/
theorem binary64Value_normal {w : Word} {e f : Nat} (hw : w.toNat = e * 2 ^ 52 + f) (he : 0 < e) (he' : e < 2 ^ 11)
    (hf : f < 2 ^ 52) : binary64Value w = (1 + (f : ℚ) / 2 ^ 52) * 2 ^ ((e : ℤ) - 1023) := by
  have hsign : w.toNat / 2 ^ 63 ≠ 1 := by omega
  have hexp : w.toNat / 2 ^ 52 % 2 ^ 11 = e := by omega
  have hfrac : w.toNat % 2 ^ 52 = f := by omega
  simp only [binary64Value, hexp, hfrac, if_neg hsign, if_neg he.ne', one_mul]

/-- `k`, the top 53 bits of a draw. -/
theorem top53_toNat (x : Word) : (x >>> 11).toNat = x.toNat / 2 ^ 11 := by
  rw [BitVec.toNat_ushiftRight, Nat.shiftRight_eq_div_pow]

theorem f64_eq_zero {x : Word} (h : x.toNat / 2 ^ 11 = 0) : f64 x = 0 := by
  simp only [f64, top53_toNat, h, if_true]

/-- The fields of a non-zero F64 pattern: with `e = floor(log2 k)`, the fraction is `k` scaled to 53 bits, without its leading bit. -/
theorem f64_toNat {x : Word} {k : Nat} (hk : k = x.toNat / 2 ^ 11) (h0 : k ≠ 0) :
    ∃ e f, e ≤ 52 ∧ f < 2 ^ 52 ∧ k * 2 ^ (52 - e) = 2 ^ 52 + f ∧ (f64 x).toNat = (e + 970) * 2 ^ 52 + f := by
  have hlt : k < 2 ^ 53 := by omega
  have he : k.log2 ≤ 52 := Nat.le_of_lt_succ ((Nat.log2_lt h0).mpr hlt)
  have hlow : 2 ^ 52 ≤ k * 2 ^ (52 - k.log2) := by
    calc 2 ^ 52 = 2 ^ k.log2 * 2 ^ (52 - k.log2) := by rw [← pow_add, Nat.add_sub_cancel' he]
      _ ≤ k * 2 ^ (52 - k.log2) := Nat.mul_le_mul_right _ (Nat.log2_self_le h0)
  have hhigh : k * 2 ^ (52 - k.log2) < 2 ^ 53 := by
    calc k * 2 ^ (52 - k.log2) < 2 ^ (k.log2 + 1) * 2 ^ (52 - k.log2) :=
          Nat.mul_lt_mul_of_pos_right Nat.lt_log2_self (by positivity)
      _ = 2 ^ 53 := by rw [← pow_add]; congr 1; omega
  obtain ⟨f, hf⟩ := Nat.exists_eq_add_of_le hlow
  have hf' : f < 2 ^ 52 := by omega
  refine ⟨k.log2, f, he, hf', hf, ?_⟩
  simp only [f64, top53_toNat, ← hk, if_neg h0, BitVec.toNat_ofNat]
  rw [Nat.shiftLeft_eq k, hf, Nat.add_mod_left, Nat.mod_eq_of_lt hf', ← Nat.shiftLeft_add_eq_or_of_lt hf', Nat.shiftLeft_eq]
  omega

/-- A number scaled to 53 bits by `52 - e`, read with the exponent field `e + 970`, is that number times 2^-53. -/
theorem normal_eq_div {k e f : Nat} (he : e ≤ 52) (hk : k * 2 ^ (52 - e) = 2 ^ 52 + f) :
    (1 + (f : ℚ) / 2 ^ 52) * 2 ^ (((e + 970 : ℕ) : ℤ) - 1023) = (k : ℚ) / 2 ^ 53 := by
  have hkf : (k : ℚ) * 2 ^ (52 - e) = 2 ^ 52 + f := by exact_mod_cast hk
  have hexp : ((e + 970 : ℕ) : ℤ) - 1023 + (52 - e : ℕ) = -1 := by omega
  have hscale : (2 : ℚ) ^ (((e + 970 : ℕ) : ℤ) - 1023) * 2 ^ (52 - e) = 2⁻¹ := by
    rw [← zpow_natCast, ← zpow_add₀ two_ne_zero, hexp, zpow_neg_one]
  generalize (2 : ℚ) ^ (((e + 970 : ℕ) : ℤ) - 1023) = z at hscale
  calc (1 + (f : ℚ) / 2 ^ 52) * z = (2 ^ 52 + f) * z / 2 ^ 52 := by ring
    _ = (k : ℚ) * (z * 2 ^ (52 - e)) / 2 ^ 52 := by rw [← hkf]; ring
    _ = (k : ℚ) / 2 ^ 53 := by rw [hscale]; ring

/-- Settles O32: 0 apart, everything is read off the pattern's fields. -/
theorem f64IsExact : Obligations.F64IsExact := by
  intro x
  by_cases h0 : x.toNat / 2 ^ 11 = 0
  · rw [f64_eq_zero h0, h0]
    exact ⟨by simp [binary64Value], rfl, fun _ => rfl, by decide⟩
  · obtain ⟨e, f, he, hf, hk, hbits⟩ := f64_toNat rfl h0
    refine ⟨?_, getLsbD_eq_of_toNat (by rw [hbits, Bool.toNat_false]; omega), fun h => absurd h h0, by omega⟩
    rw [binary64Value_normal hbits (by omega) (by omega) hf, normal_eq_div he hk]

/-! ### Moves of the generator (R113, R118) -/

/-- `g'` is `g` moved by `d` raw steps, state and position, with everything else unchanged: what `AdvanceFn` answers. -/
structure MovedBy (g : Gen) (d : Int) (g' : Gen) : Prop where
  state : Reaches g.inc g.state d g'.state
  pos : g'.pos.toInt = g.pos.toInt + d
  inc : g'.inc = g.inc
  srecState : g'.srecState = g.srecState
  srecInc : g'.srecInc = g.srecInc
  seeded : g'.seeded = g.seeded

theorem movedBy_of_advanceFn {g g' : Gen} {d : Int} (h : advanceFn g d = .ok g') : MovedBy g d g' := by
  obtain ⟨hstate, hpos, hinc, hrs, hri, hseeded⟩ := advanceFn_eq_ok h
  exact ⟨hstate, hpos, hinc, hrs, hri, hseeded⟩

namespace MovedBy

theorem refl (g : Gen) : MovedBy g 0 g := ⟨Reaches.zero _ _, (add_zero _).symm, rfl, rfl, rfl, rfl⟩

theorem trans {a b c : Gen} {d e : Int} (h : MovedBy a d b) (h' : MovedBy b e c) : MovedBy a (d + e) c where
  state := h.state.trans (h.inc ▸ h'.state)
  pos := by rw [h'.pos, h.pos, add_assoc]
  inc := h'.inc.trans h.inc
  srecState := h'.srecState.trans h.srecState
  srecInc := h'.srecInc.trans h.srecInc
  seeded := h'.seeded.trans h.seeded

theorem unique {a b c : Gen} {d : Int} (h : MovedBy a d b) (h' : MovedBy a d c) : b = c := by
  have hstate : b.state = c.state := h.state.unique h'.state
  have hpos : b.pos = c.pos := BitVec.eq_of_toInt_eq (h.pos.trans h'.pos.symm)
  have hinc : b.inc = c.inc := h.inc.trans h'.inc.symm
  have hrs : b.srecState = c.srecState := h.srecState.trans h'.srecState.symm
  have hri : b.srecInc = c.srecInc := h.srecInc.trans h'.srecInc.symm
  have hseeded : b.seeded = c.seeded := h.seeded.trans h'.seeded.symm
  cases b
  cases c
  simp only [Gen.mk.injEq]
  exact ⟨hstate, hinc, hpos, hrs, hri, hseeded⟩

end MovedBy

/-- Settles O41: moves compose, and a move has one end. -/
theorem advanceFnIsInvertibleAndAdditive : Obligations.AdvanceFnIsInvertibleAndAdditive := by
  refine ⟨fun g g' g'' d h h' => ?_, fun g g1 g2 g3 d1 d2 h1 h2 h3 => ?_⟩
  · have hback : MovedBy g (d + -d) g'' := (movedBy_of_advanceFn h).trans (movedBy_of_advanceFn h')
    rw [add_neg_cancel] at hback
    exact hback.unique (MovedBy.refl g)
  · exact ((movedBy_of_advanceFn h1).trans (movedBy_of_advanceFn h2)).unique (movedBy_of_advanceFn h3)

/-! ### The period of the LCG (R117)

`n` steps displace a state by its first displacement times the geometric sum of MUL; the first displacement is odd, so a state comes
back exactly when 2^128 divides that sum. As MUL is 1 modulo 4, the sum of `n` terms has as many factors 2 as `n`. -/

/-- `1 + MUL + … + MUL^(n-1)`. -/
def mulSum (n : Nat) : Nat := ∑ i ∈ Finset.range n, 0xDA942042E4DD58B5 ^ i

theorem mulSum_succ (n : Nat) : mulSum (n + 1) = 0xDA942042E4DD58B5 * mulSum n + 1 := geom_sum_succ

theorem forward_sub_self (inc x : U128) (n : Nat) :
    forward inc n x - x = (lcgStep x inc - x) * (mulSum n : U128) := by
  induction n with
  | zero => simp [mulSum]
  | succ n ih =>
    have hmul : ((0xDA942042E4DD58B5 : ℕ) : U128) = lcgMul := rfl
    rw [mulSum_succ, Nat.cast_add, Nat.cast_mul, hmul, Nat.cast_one, forward_succ]
    calc lcgStep (forward inc n x) inc - x = lcgMul * (forward inc n x - x) + (lcgStep x inc - x) := by
          simp only [lcgStep]; ring
      _ = (lcgStep x inc - x) * (lcgMul * (mulSum n : U128) + 1) := by rw [ih]; ring

theorem natCast_eq_zero_iff (n : Nat) : (n : U128) = 0 ↔ 2 ^ 128 ∣ n := by
  rw [← BitVec.toNat_inj, BitVec.natCast_eq_ofNat, BitVec.toNat_ofNat, Nat.dvd_iff_mod_eq_zero]
  rfl

/-- An odd factor does not take a number to 0 modulo 2^128. -/
theorem mul_eq_zero_iff_of_odd {c : U128} (hc : c.toNat % 2 = 1) (y : U128) : c * y = 0 ↔ y = 0 := by
  have hcop : Nat.Coprime (2 ^ 128) c.toNat := Nat.Coprime.pow_left 128 (Nat.coprime_two_left.mpr (Nat.odd_iff.mpr hc))
  have hzero (v : U128) : v = 0 ↔ 2 ^ 128 ∣ v.toNat := by
    rw [← natCast_eq_zero_iff, BitVec.natCast_eq_ofNat, BitVec.ofNat_toNat, BitVec.setWidth_eq]
  rw [hzero, hzero, BitVec.toNat_mul, Nat.dvd_mod_iff dvd_rfl, hcop.dvd_mul_left]

/-- One step with an odd increment moves a state by an odd amount, as MUL is odd. -/
theorem lcgStep_sub_self_odd {inc : U128} (h : inc.getLsbD 0 = true) (x : U128) : (lcgStep x inc - x).toNat % 2 = 1 := by
  have hinc : inc.toNat % 2 = 1 := by simpa [BitVec.getLsbD, Nat.testBit_zero] using h
  have hx := x.isLt
  rw [BitVec.toNat_sub, lcgStep_toNat]
  omega

/-- Lifting the exponent: MUL is 1 modulo 4, so the sum of `n` powers has the factors 2 of `n`. -/
theorem two_pow_dvd_mulSum_iff (k n : Nat) : 2 ^ k ∣ mulSum n ↔ 2 ^ k ∣ n := by
  have hlift := Int.two_pow_sub_pow' (x := 0xDA942042E4DD58B5) (y := 1) n (by decide) (by decide)
  have hgeom : (0xDA942042E4DD58B5 ^ n - 1 ^ n : ℤ) = (0xDA942042E4DD58B5 - 1) * (mulSum n : ℤ) := by
    rw [one_pow, mulSum]; push_cast; exact (mul_geom_sum _ _).symm
  have hfin : FiniteMultiplicity (2 : ℤ) (0xDA942042E4DD58B5 - 1) := Int.finiteMultiplicity_iff.mpr (by decide)
  rw [hgeom, emultiplicity_mul Int.prime_two] at hlift
  have hsame := WithTop.add_left_cancel (finiteMultiplicity_iff_emultiplicity_ne_top.mp hfin) hlift
  have hdvd (m : Nat) : 2 ^ k ∣ m ↔ k ≤ emultiplicity (2 : ℤ) m := by
    rw [← pow_dvd_iff_le_emultiplicity]
    norm_cast
  rw [hdvd, hdvd, hsame]

/-- Settles O43: the first displacement is odd, so only the geometric sum can vanish. -/
theorem lcgHasFullPeriod : Obligations.LcgHasFullPeriod := by
  intro inc x n hinc
  rw [← sub_eq_zero, forward_sub_self, mul_eq_zero_iff_of_odd (lcgStep_sub_self_odd hinc x), natCast_eq_zero_iff,
    two_pow_dvd_mulSum_iff]

theorem forward_period {inc : U128} (hinc : inc.getLsbD 0 = true) (x : U128) : forward inc (2 ^ 128) x = x :=
  (lcgHasFullPeriod inc x _ hinc).mpr dvd_rfl

theorem Affine.base_pow_period {inc : U128} (hinc : inc.getLsbD 0 = true) :
    (Affine.base inc).pow (2 ^ 128) = Affine.identity :=
  Affine.ext_app _ _ fun x => by rw [Affine.base_pow_app, forward_period hinc, Affine.app_identity]

theorem Affine.invBase_pow_period {inc : U128} (hinc : inc.getLsbD 0 = true) :
    (Affine.invBase inc).pow (2 ^ 128) = Affine.identity :=
  Affine.ext_app _ _ fun x => by
    have hback := Affine.forward_invBase_pow inc (2 ^ 128) x
    rw [forward_period hinc] at hback
    rw [hback, Affine.app_identity]

/-- When the `p`-th power of a transform is the identity, exponents count modulo `p` (R117). -/
theorem Affine.pow_mod {t : Affine} {p : Nat} (h : t.pow p = Affine.identity) (n : Nat) : t.pow n = t.pow (n % p) := by
  refine Affine.ext_app _ _ fun x => ?_
  have hfix : Function.IsPeriodicPt t.app p x := by
    rw [Function.IsPeriodicPt, Function.IsFixedPt, ← Affine.pow_app, h, Affine.app_identity]
  rw [Affine.pow_app, Affine.pow_app, hfix.iterate_mod_apply]

/-- Settles O42: both steps have the period of the LCG, and exponents count modulo a period. -/
theorem stepsHavePeriodTwoToThe128 : Obligations.StepsHavePeriodTwoToThe128 := fun _ hinc =>
  have hbase := Affine.base_pow_period hinc
  have hinvBase := Affine.invBase_pow_period hinc
  ⟨hbase, hinvBase, fun n => ⟨Affine.pow_mod hbase n, Affine.pow_mod hinvBase n⟩⟩

end Sys2Proof.Machine
end

section
/-! The modular inverse (41_modinv.md R130 to R132): the precision doubles in each refinement, an odd operand's inverse is the only one,
and INV writes it. -/

namespace Sys2Proof.Machine

/-! ### The refinement (R130) -/

/-- One refinement squares the error of the iterate, so it doubles the precision. -/
theorem newton_refinement_inverse {a i : ℤ} {b nb : ℕ} (h : a * i ≡ 1 [ZMOD 2 ^ b]) (hnb : nb ≤ 2 * b) :
    a * (i * (2 - a * i) % 2 ^ nb) ≡ 1 [ZMOD 2 ^ nb] := by
  have hmod : i * (2 - a * i) % 2 ^ nb ≡ i * (2 - a * i) [ZMOD 2 ^ nb] := Int.mod_modEq _ _
  refine (hmod.mul_left a).trans (Int.modEq_iff_dvd.mpr ?_)
  have herror : 1 - a * (i * (2 - a * i)) = (1 - a * i) ^ 2 := by ring
  calc (2 : ℤ) ^ nb ∣ 2 ^ (b * 2) := pow_dvd_pow 2 (by omega)
    _ = (2 ^ b) ^ 2 := pow_mul 2 b 2
    _ ∣ (1 - a * i) ^ 2 := pow_dvd_pow_of_dvd h.dvd 2
    _ = 1 - a * (i * (2 - a * i)) := herror.symm

/-- Once the doublings left reach 128 bits, the loop ends in an inverse modulo 2^128; the last precision is clamped there. -/
theorem modInvLoop_inverse {a : ℤ} (n : ℕ) {b : ℕ} {i : ℤ} (h : a * i ≡ 1 [ZMOD 2 ^ b]) (hn : 128 ≤ 2 ^ n * b) :
    a * modInvLoop a n b i ≡ 1 [ZMOD 2 ^ 128] := by
  induction n generalizing b i with
  | zero => exact h.of_dvd (pow_dvd_pow 2 (by omega))
  | succ n ih =>
    refine ih (newton_refinement_inverse h (min_le_left _ _)) ?_
    rw [← Nat.mul_min_mul_left]
    refine le_min ?_ (Nat.le_mul_of_pos_left 128 (by positivity))
    rwa [← mul_assoc, ← pow_succ]

/-! ### ModInv on 128-bit words (R130, R131) -/

/-- A word times the word of an integer is the word of the product. -/
theorem mul_ofInt (a : U128) (z : ℤ) : a * BitVec.ofInt 128 z = BitVec.ofInt 128 (a.toNat * z) := by
  rw [BitVec.ofInt_mul, BitVec.ofInt_natCast, BitVec.ofNat_toNat, BitVec.setWidth_eq]

/-- An odd operand times its ModInv is 1: the loop starts from 1, the inverse modulo 2, and seven doublings make that 2^128. -/
theorem mul_modInv {a : U128} (h : a.toNat % 2 = 1) : a * modInv a = 1 := by
  have hstart : (a.toNat : ℤ) * 1 ≡ 1 [ZMOD 2 ^ 1] := by
    rw [mul_one]
    exact_mod_cast h
  have hend : (a.toNat * modInvLoop a.toNat 7 1 1 : ℤ) % 2 ^ 128 = 1 := modInvLoop_inverse 7 hstart (by decide)
  rw [modInv, mul_ofInt, ← BitVec.toNat_inj, BitVec.toNat_ofInt]
  exact congrArg Int.toNat hend

/-- An inverse is the only one (R131). -/
theorem mul_eq_one_iff_eq_modInv {a : U128} (h : a.toNat % 2 = 1) (v : U128) : a * v = 1 ↔ v = modInv a := by
  rw [← mul_modInv h, (IsUnit.of_mul_eq_one _ (mul_modInv h)).mul_right_inj]

/-! ### INV (R132) -/

theorem getLsbD_zero_eq_decide_odd (a : U128) : a.getLsbD 0 = decide (a.toNat % 2 = 1) := Nat.testBit_zero _

theorem exec_inv_even {s : State} (h : s.opA.toNat % 2 = 0) : exec .inv s = .next (s.fail .even) := by
  have hbit : s.opA.getLsbD 0 = false := by rw [getLsbD_zero_eq_decide_odd, h]; rfl
  simp only [exec, execInv, hbit, Bool.false_eq_true, if_false, State.commit_error]

theorem exec_inv_odd {s : State} (h : s.opA.toNat % 2 = 1) :
    exec .inv s = .next (s.succeed s.gen (s.res.setR (modInv s.opA))) := by
  have hbit : s.opA.getLsbD 0 = true := by rw [getLsbD_zero_eq_decide_odd, h]; rfl
  simp only [exec, execInv, hbit, if_true, State.commit_ok]

/-- Settles O49: an odd operand's ModInv is its one inverse, and R holds it by halves. -/
theorem invWritesTheUniqueInverse : Obligations.InvWritesTheUniqueInverse := by
  refine ⟨rfl, fun s => ⟨exec_inv_even, fun hodd => ?_⟩⟩
  refine ⟨hi64 (modInv s.opA), lo64 (modInv s.opA), exec_inv_odd hodd, fun v => ?_⟩
  rw [hi64_append_lo64, ← mul_eq_one_iff_eq_modInv hodd, ← BitVec.toNat_inj, BitVec.toNat_mul]
  rfl

end Sys2Proof.Machine
end

section
/-! The affine composer and ADVANCE (42_affine.md R140 to R143): the transforms AFFCOMP and AFFPOW leave in R and S, what ADVANCE can
do, and ADVANCE against draws taken one by one. -/

namespace Sys2Proof.Machine

/-! ### ADVANCE (R142) -/

theorem exec_advance_seeded {s : State} (hs : s.gen.seeded = true) :
    exec .advance s = .next (s.commit ((advanceFn s.gen s.opPSigned).map fun g => (g, s.res))) := by
  rw [exec, execAdvance, State.ifSeeded_of_seeded _ _ hs]

theorem exec_advance_of_ok {s : State} {g : Gen} (hs : s.gen.seeded = true) (h : advanceFn s.gen s.opPSigned = .ok g) :
    exec .advance s = .next (s.succeed g s.res) := by
  rw [exec_advance_seeded hs, h, Except.map, State.commit_ok]

theorem exec_advance_of_error {s : State} {c : ECode} (hs : s.gen.seeded = true)
    (h : advanceFn s.gen s.opPSigned = .error c) : exec .advance s = .next (s.fail c) := by
  rw [exec_advance_seeded hs, h, Except.map, State.commit_error]

/-- Code 0 after ADVANCE means that `AdvanceFn` answered the generator now in place. -/
theorem advanceFn_of_exec_advance {s t : State} (h : exec .advance s = .next t) (hok : t.ecode = .ok) :
    advanceFn s.gen s.opPSigned = .ok t.gen := by
  cases hs : s.gen.seeded with
  | false =>
    rw [exec_unseeded s rfl hs] at h
    cases h
    cases hok
  | true =>
    cases ha : advanceFn s.gen s.opPSigned with
    | ok g =>
      rw [exec_advance_of_ok hs ha] at h
      cases h
      rfl
    | error c =>
      rw [exec_advance_of_error hs ha, advanceFn_eq_error ha] at h
      cases h
      cases hok

/-- Settles O39: a seeded ADVANCE ends as `AdvanceFn` does, and `moveState` counts raw steps. -/
theorem advanceMovesByRawSteps : Obligations.AdvanceMovesByRawSteps := by
  refine ⟨rfl, fun s => ⟨exec_unseeded s rfl, fun hs hout => ?_, fun hs hlow hhigh => ?_⟩⟩
  · exact exec_advance_of_error hs (advanceFn_error _ _ hout)
  · exact ⟨_, moveState_reaches _ _ _, exec_advance_of_ok hs (advanceFn_ok _ _ hlow hhigh)⟩

/-! ### ADVANCE and draws (R143) -/

theorem moveState_natCast (inc : U128) (n : Nat) (st : U128) : moveState inc n st = forward inc n st :=
  (reaches_iff_moveState.mp (by simp [Reaches])).symm

/-- Advancing by `n` with room is drawing `n` times. -/
theorem advanceFn_natCast (g : Gen) (n : Nat) (h : g.pos.toInt + n ≤ posMax) : advanceFn g n = .ok (afterDraws g n) := by
  have hr := pos_range g.pos
  rw [advanceFn_ok g n (by omega) h, moveState_natCast, afterDraws]

/-- NEXT64 on a seeded generator with room: one draw, its output in RES0 (R166). -/
theorem exec_next64_of_room {s : State} (hs : s.gen.seeded = true) (h : s.gen.pos.toInt + 1 ≤ posMax) :
    exec .next64 s = .next (s.succeed (afterDraws s.gen 1) (s.res.set 0 (nthDraw s.gen 0))) := by
  have hdraw := rawDraw_afterDraws s.gen 0 (by simpa using h)
  rw [afterDraws_zero] at hdraw
  rw [exec, execNext64, State.ifSeeded_of_seeded _ _ hs, drawInto, hdraw, Except.map, State.commit_ok, id]

/-- `n` NEXT64 commands in a row leave the generator after `n` draws. -/
theorem execTimes_next64 (n : Nat) {s : State} (hs : s.gen.seeded = true) (h : s.gen.pos.toInt + n ≤ posMax) :
    ∃ u, execTimes .next64 n s = .next u ∧ u.gen = afterDraws s.gen n := by
  induction n generalizing s with
  | zero => exact ⟨s, rfl, (afterDraws_zero _).symm⟩
  | succ n ih =>
    have hroom : s.gen.pos.toInt + 1 ≤ posMax := by omega
    have hpos := afterDraws_pos s.gen 1 hroom
    obtain ⟨u, hu, hgen⟩ := ih (s := s.succeed (afterDraws s.gen 1) (s.res.set 0 (nthDraw s.gen 0)))
      (by simpa using hs) (by rw [State.succeed_gen, hpos]; push_cast at *; omega)
    refine ⟨u, ?_, ?_⟩
    · rw [execTimes, exec_next64_of_room hs hroom]
      exact hu
    · rw [hgen, State.succeed_gen, afterDraws_add _ _ _ hroom, Nat.add_comm]

/-- Settles O40: moves of `AdvanceFn` are invertible, and `n` draws make the move by `n`. -/
theorem advanceUndoesAndReplacesDraws : Obligations.AdvanceUndoesAndReplacesDraws := by
  refine ⟨fun s t u op _ ht _ htok hneg hu _ huok => ?_, fun s n hs _ hn hroom => ?_⟩
  · have hto := advanceFn_of_exec_advance ht htok
    have hback := advanceFn_of_exec_advance hu huok
    rw [hneg] at hback
    obtain ⟨hinverse, -⟩ := advanceFnIsInvertibleAndAdditive
    exact hinverse _ _ _ _ hto hback
  · have hadvance : advanceFn s.gen s.opPSigned = .ok (afterDraws s.gen n) := hn ▸ advanceFn_natCast s.gen n hroom
    obtain ⟨u, hu, hgen⟩ := execTimes_next64 n hs hroom
    exact ⟨_, u, exec_advance_of_ok hs hadvance, hu, hgen.symm, rfl⟩

/-! ### The composer (R140, R141) -/

/-- A success that leaves a transform in the result bank writes RES0 to RES3 only: the multiplier in R, the offset in S. -/
theorem succeed_setAffine (s : State) (t : Affine) : ∃ r1 r0 s1 s0 : Word,
    s.succeed s.gen (s.res.setAffine t) = { s with
      res := { s.res with r0 := r0, r1 := r1, r2 := s0, r3 := s1 }, ecode := .ok, busy := false, waited := 0 } ∧
    (r1 ++ r0 : U128) = t.m ∧ (s1 ++ s0 : U128) = t.c :=
  ⟨hi64 t.m, lo64 t.m, hi64 t.c, lo64 t.c, rfl, hi64_append_lo64 t.m, hi64_append_lo64 t.c⟩

theorem exec_affComp (s : State) :
    exec .affComp s = .next (s.succeed s.gen (s.res.setAffine (Affine.compose ⟨s.opC, s.opD⟩ ⟨s.opA, s.opB⟩))) := rfl

theorem exec_affPow (s : State) :
    exec .affPow s = .next (s.succeed s.gen (s.res.setAffine (Affine.pow ⟨s.opA, s.opB⟩ s.opP.toNat))) := rfl

theorem Affine.compose_m_toNat (t2 t1 : Affine) :
    (Affine.compose t2 t1).m.toNat = t2.m.toNat * t1.m.toNat % 2 ^ 128 := by
  rw [Affine.compose, BitVec.toNat_mul]

theorem Affine.compose_c_toNat (t2 t1 : Affine) :
    (Affine.compose t2 t1).c.toNat = (t2.m.toNat * t1.c.toNat + t2.c.toNat) % 2 ^ 128 := by
  rw [Affine.compose, BitVec.toNat_add, BitVec.toNat_mul, Nat.mod_add_mod]

/-- Settles O50: R and S hold the composed transform. -/
theorem affCompComposes : Obligations.AffCompComposes := by
  refine ⟨rfl, fun s => ?_⟩
  obtain ⟨r1, r0, s1, s0, hnext, hR, hS⟩ := succeed_setAffine s (Affine.compose ⟨s.opC, s.opD⟩ ⟨s.opA, s.opB⟩)
  refine ⟨r1, r0, s1, s0, (exec_affComp s).trans (congrArg _ hnext), ?_⟩
  rw [hR, hS]
  exact ⟨Affine.compose_m_toNat _ _, Affine.compose_c_toNat _ _, Affine.app_compose ⟨s.opC, s.opD⟩ ⟨s.opA, s.opB⟩⟩

/-- The `n`-th power is the only transform that is `n` applications (R109, R117). -/
theorem Affine.app_eq_iterate_iff (t u : Affine) (n : Nat) : (∀ x, u.app x = t.app^[n] x) ↔ u = t.pow n := by
  constructor
  · intro h
    exact Affine.ext_app _ _ fun x => (h x).trans (Affine.pow_app t n x).symm
  · rintro rfl
    exact Affine.pow_app t n

/-- Settles O51: R and S hold the power, and a transform is its multiplier and its offset. -/
theorem affPowIteratesTheTransform : Obligations.AffPowIteratesTheTransform := by
  refine ⟨rfl, fun s => ?_⟩
  obtain ⟨r1, r0, s1, s0, hnext, hR, hS⟩ := succeed_setAffine s (Affine.pow ⟨s.opA, s.opB⟩ s.opP.toNat)
  refine ⟨r1, r0, s1, s0, (exec_affPow s).trans (congrArg _ hnext), fun m c => ?_⟩
  rw [hR, hS]
  calc (∀ x, (Affine.mk m c).app x = (Affine.mk s.opA s.opB).app^[s.opP.toNat] x)
      ↔ Affine.mk m c = (Affine.mk s.opA s.opB).pow s.opP.toNat := Affine.app_eq_iterate_iff _ _ _
    _ ↔ m = _ ∧ c = _ := Iff.of_eq (Affine.mk.injEq ..)

end Sys2Proof.Machine
end

section
/-! Seeding and draws (43_generator.md R161 to R168): SeedInit on numbers, the entropy draw's two big-endian halves, a source that never
answers, DXSM, and the one raw draw of NEXT64 and NEXTF64. -/

namespace Sys2Proof.Machine

/-! ### SeedInit on numbers (R105, R114) -/

/-- One LCG step as the word of a number. -/
theorem lcgStep_eq_ofNat (x inc : U128) : lcgStep x inc = BitVec.ofNat 128 (x.toNat * 0xDA942042E4DD58B5 + inc.toNat) := by
  rw [← BitVec.toNat_inj, lcgStep_toNat, BitVec.toNat_ofNat]

/-- The canonical seeding step as the word of a number: the sum need not be reduced before it is multiplied. -/
theorem lcgStep_add_eq_ofNat (ss inc : U128) :
    lcgStep (ss + inc) inc = BitVec.ofNat 128 ((ss.toNat + inc.toNat) * 0xDA942042E4DD58B5 + inc.toNat) := by
  rw [← BitVec.toNat_inj, lcgStep_toNat, BitVec.toNat_ofNat, BitVec.toNat_add]
  omega

/-- Forcing the word of a number odd is forcing the number odd. -/
theorem ofNat_or_one {si inc : Nat} (hinc : inc = if si % 2 = 0 then si + 1 else si) :
    BitVec.ofNat 128 si ||| 1 = BitVec.ofNat 128 inc := by
  rw [← BitVec.toNat_inj, or_one_toNat, BitVec.toNat_ofNat, BitVec.toNat_ofNat, hinc]
  split_ifs <;> omega

/-- SeedInit of the words of two numbers, neither of which need be reduced. -/
theorem seedInit_ofNat (ss : Nat) {si inc : Nat} (hinc : inc = if si % 2 = 0 then si + 1 else si) :
    seedInit (BitVec.ofNat 128 ss) (BitVec.ofNat 128 si) = {
      state := BitVec.ofNat 128 ((ss + inc) * 0xDA942042E4DD58B5 + inc)
      inc := BitVec.ofNat 128 inc
      pos := 0
      srecState := BitVec.ofNat 128 ss
      srecInc := BitVec.ofNat 128 inc
      seeded := true } := by
  have hMul : lcgMul = BitVec.ofNat 128 0xDA942042E4DD58B5 := rfl
  rw [seedInit, ofNat_or_one hinc, lcgStep, hMul, ← BitVec.ofNat_add, ← BitVec.ofNat_mul, ← BitVec.ofNat_add]

/-- SeedInit forces the increment odd before it reads it. -/
theorem seedInit_or_one (ss si : U128) : seedInit ss (si ||| 1) = seedInit ss si := by
  simp only [seedInit, BitVec.or_assoc, BitVec.or_self]

/-! ### SEED.PAIR and SEED.STATE (R161, R162) -/

theorem exec_seedPair (s : State) : exec .seedPair s = .next (s.succeed (seedInit s.opA s.opB) s.res) := rfl

theorem exec_seedState (s : State) : exec .seedState s = .next (s.succeed (seedInit s.opA 1) s.res) := rfl

/-- Settles O24: SEED.PAIR succeeds with SeedInit's generator, read on numbers. -/
theorem seedPairSeedsFromAAndB : Obligations.SeedPairSeedsFromAAndB := by
  refine ⟨decode_encode .seedPair, fun s inc hinc => ?_⟩
  have hseed := seedInit_ofNat s.opA.toNat hinc
  simp only [BitVec.ofNat_toNat, BitVec.setWidth_eq] at hseed
  rw [exec_seedPair, hseed, State.succeed]

/-- Settles O25: 1 is odd already, and 0 forced odd is 1. -/
theorem seedStateSeedsFromA : Obligations.SeedStateSeedsFromA := by
  refine ⟨decode_encode .seedState, fun s => ⟨?_, fun hB => ?_⟩⟩
  · have hseed := seedInit_ofNat s.opA.toNat (si := 1) (inc := 1) rfl
    rw [BitVec.ofNat_toNat, BitVec.setWidth_eq] at hseed
    rw [exec_seedState, BitVec.ofNat_eq_ofNat, hseed, State.succeed]
  · rw [exec_seedPair, exec_seedState]
    rcases hB with hB | hB <;> rw [hB]
    rw [← seedInit_or_one, show (0 : U128) ||| 1 = 1 from rfl]

/-! ### SEED.ENTROPY (R163, R165) -/

/-- The loop of the big-endian reading, from any accumulator. -/
theorem foldl_bigEndian (l : List Byte) (acc : Nat) : l.foldl (fun acc b => 256 * acc + b.toNat) acc =
    acc * 256 ^ l.length + ∑ i ∈ Finset.range l.length, (l.getD i 0).toNat * 256 ^ (l.length - 1 - i) := by
  induction l generalizing acc with
  | nil => simp
  | cons b l ih =>
    have hexp (i : Nat) : l.length + 1 - 1 - (i + 1) = l.length - 1 - i := by omega
    rw [List.foldl_cons, ih, List.length_cons, Finset.sum_range_succ']
    simp only [List.getD_cons_succ, List.getD_cons_zero, hexp]
    rw [Nat.add_sub_cancel, Nat.sub_zero]
    ring

/-- 16 bytes as a number, first byte most significant (R163). -/
theorem bigEndian_of_length_16 {l : List Byte} (hl : l.length = 16) :
    bigEndian l = ∑ i ∈ Finset.range 16, (l.getD i 0).toNat * 2 ^ (8 * (15 - i)) := by
  rw [bigEndian, foldl_bigEndian, hl, zero_mul, zero_add]
  simp only [pow_mul, Nat.reducePow, Nat.reduceSub]

theorem bigEndian_take (e : Vector Byte 32) :
    bigEndian (e.toList.take 16) = ∑ i ∈ Finset.range 16, (e.toList.getD i 0).toNat * 2 ^ (8 * (15 - i)) := by
  rw [bigEndian_of_length_16 (by simp)]
  refine Finset.sum_congr rfl fun i hi => ?_
  rw [List.getD_eq_getElem?_getD, List.getElem?_take_of_lt (Finset.mem_range.mp hi), ← List.getD_eq_getElem?_getD]

theorem bigEndian_drop (e : Vector Byte 32) :
    bigEndian (e.toList.drop 16) = ∑ i ∈ Finset.range 16, (e.toList.getD (16 + i) 0).toNat * 2 ^ (8 * (15 - i)) := by
  rw [bigEndian_of_length_16 (by simp)]
  refine Finset.sum_congr rfl fun i _ => ?_
  rw [List.getD_eq_getElem?_getD, List.getElem?_drop, ← List.getD_eq_getElem?_getD]

theorem exec_seedEntropy_absent {s : State} (h : s.ent = false) : exec .seedEntropy s = .next (s.fail .noEntropy) := by
  simp only [exec, execSeedEntropy, h, Bool.false_eq_true, if_false, State.commit_error]

theorem exec_seedEntropy_unavailable {s : State} (h : s.ent = true) (he : s.entropy = .unavailable) :
    exec .seedEntropy s = .next (s.consultEntropy.fail .noEntropy) := by
  simp only [exec, execSeedEntropy, h, he, if_true, State.commit_error]

theorem exec_seedEntropy_bytes {s : State} {e : Vector Byte 32} (h : s.ent = true) (he : s.entropy = .bytes e) :
    exec .seedEntropy s = .next (s.consultEntropy.succeed (seedInit (entropyState e) (entropyInc e)) s.res) := by
  simp only [exec, execSeedEntropy, h, he, if_true, State.commit_ok]

theorem exec_seedEntropy_silent {s : State} (h : s.ent = true) (he : s.entropy = .silent) :
    exec .seedEntropy s = .next s.stillPending := by
  simp only [exec, execSeedEntropy, h, he, if_true]

/-- Settles O26: one clause per answer of the source; the halves of the draw are SeedInit's two words. -/
theorem seedEntropySeedsFromTheDraw : Obligations.SeedEntropySeedsFromTheDraw := by
  refine ⟨decode_encode .seedEntropy, fun s => ⟨exec_seedEntropy_absent, fun hent hunavailable => ?_,
    fun e hent hbytes ss si inc hss hsi hinc => ?_⟩⟩
  · exact ⟨_, _, exec_seedEntropy_unavailable hent hunavailable⟩
  · have hexec := exec_seedEntropy_bytes hent hbytes
    rw [entropyState, entropyInc, bigEndian_take, bigEndian_drop, ← hss, ← hsi, seedInit_ofNat ss hinc] at hexec
    exact ⟨_, _, hexec⟩

/-- Settles O27: each turn leaves the command pending, and only the turn count moves. -/
theorem silentEntropySourceLeavesBusy : Obligations.SilentEntropySourceLeavesBusy := by
  intro s hent hsilent hbusy hcmd hschedule n
  induction n generalizing s with
  | zero => exact run_zero s
  | succ n ih =>
    have hdecode : decode s.cmd = .ok .seedEntropy := hcmd ▸ decode_encode .seedEntropy
    have hstep : step s = .next s.stillPending := by
      rw [step_nil hschedule, engineTurn_busy s _ hbusy hdecode, exec_seedEntropy_silent hent hsilent]
    rw [run_succ n hstep, ih s.stillPending hent hsilent hbusy hcmd hschedule, State.stillPending_waited, State.stillPending,
      Nat.add_right_comm, Nat.add_assoc]

/-! ### Draws (R166 to R168) -/

/-- Settles O29: DXSM succeeds with the permutation in RES0. -/
theorem dxsmCommandPermutesA : Obligations.DxsmCommandPermutesA :=
  ⟨decode_encode .dxsm, fun _ => rfl⟩

theorem drawInto_of_room {s : State} (f : Word → Word) (h : s.gen.pos.toInt + 1 ≤ posMax) :
    drawInto s f = .ok (afterDraws s.gen 1, s.res.set 0 (f (nthDraw s.gen 0))) := by
  have hdraw := rawDraw_afterDraws s.gen 0 (by simpa using h)
  rw [afterDraws_zero] at hdraw
  rw [drawInto, hdraw, Except.map]

theorem drawInto_at_posMax {s : State} (f : Word → Word) (h : s.gen.pos.toInt = posMax) :
    drawInto s f = .error .posRange := by
  have hdraw := rawDraw_afterDraws_error s.gen 0 (by simpa using h)
  rw [afterDraws_zero] at hdraw
  rw [drawInto, hdraw, Except.map]

/-- One draw on numbers. -/
theorem afterDraws_one_eq_ofNat (g : Gen) : afterDraws g 1 = { g with
    state := BitVec.ofNat 128 (g.state.toNat * 0xDA942042E4DD58B5 + g.inc.toNat), pos := g.pos + 1 } := by
  rw [afterDraws_eq, forward_succ, forward_zero, lcgStep_eq_ofNat, BitVec.ofNat_eq_ofNat]

theorem commit_drawInto_of_room {s : State} (f : Word → Word) (hs : s.gen.seeded = true) (h : s.gen.pos.toInt ≠ posMax) :
    s.commit (s.ifSeeded (drawInto s f)) = s.succeed
      { s.gen with
        state := BitVec.ofNat 128 (s.gen.state.toNat * 0xDA942042E4DD58B5 + s.gen.inc.toNat), pos := s.gen.pos + 1 }
      { s.res with r0 := f (dxsmPermute s.gen.state) } := by
  obtain ⟨-, hle⟩ := pos_range s.gen.pos
  rw [State.ifSeeded_of_seeded _ _ hs, drawInto_of_room f (by omega), State.commit_ok, afterDraws_one_eq_ofNat]
  rfl

theorem commit_drawInto_at_posMax {s : State} (f : Word → Word) (hs : s.gen.seeded = true) (h : s.gen.pos.toInt = posMax) :
    s.commit (s.ifSeeded (drawInto s f)) = s.fail .posRange := by
  rw [State.ifSeeded_of_seeded _ _ hs, drawInto_at_posMax f h, State.commit_error]

/-- Settles O30: the draw's output as it is. -/
theorem next64DrawsOnce : Obligations.Next64DrawsOnce :=
  ⟨decode_encode .next64, fun s => ⟨exec_unseeded s rfl,
    fun hs hlast => congrArg _ (commit_drawInto_at_posMax id hs hlast),
    fun hs hroom => congrArg _ (commit_drawInto_of_room id hs hroom)⟩⟩

/-- Settles O31: the draw's output through F64. -/
theorem nextF64DrawsOnce : Obligations.NextF64DrawsOnce :=
  ⟨decode_encode .nextF64, fun s => ⟨exec_unseeded s rfl,
    fun hs hlast => congrArg _ (commit_drawInto_at_posMax f64 hs hlast),
    fun hs hroom => congrArg _ (commit_drawInto_of_room f64 hs hroom)⟩⟩

end Sys2Proof.Machine
end

section
/-! Positioning and import (43_generator.md R169 to R173): SEEK and RESET from the seed record, JUMPED's clone, and the one record
IMPORT derives. -/

namespace Sys2Proof.Machine

/-! ### The seed record -/

/-- The seed point of a record, on numbers (R160). -/
theorem seedInit_state (ss si : U128) : (seedInit ss si).state =
    BitVec.ofNat 128 ((ss.toNat + (si ||| 1).toNat) * 0xDA942042E4DD58B5 + (si ||| 1).toNat) :=
  lcgStep_add_eq_ofNat ss (si ||| 1)

/-- With one increment, different seed states have different seed points. -/
theorem seedInit_state_injective (si : U128) : Function.Injective fun ss => (seedInit ss si).state := fun _ _ h =>
  add_right_cancel (lcgStep_injective (si ||| 1) h)

/-- Under the invariants the live registers determine the whole generator: only one seed record reaches them (R40). -/
theorem Gen.Inv.eq_of_live {g g' : Gen} (hg : g.Inv) (hg' : g'.Inv) (hs : g.seeded = true) (hs' : g'.seeded = true)
    (hstate : g.state = g'.state) (hinc : g.inc = g'.inc) (hpos : g.pos = g'.pos) : g = g' := by
  have hri : g.srecInc = g'.srecInc := by rw [hg.recordInc hs, hg'.recordInc hs', hinc]
  have hback : Reaches g.inc g.state (-g.pos.toInt) g.seedPoint := (hg.seek hs).symm
  have hback' : Reaches g.inc g.state (-g.pos.toInt) g'.seedPoint := by
    rw [hinc, hstate, hpos]
    exact (hg'.seek hs').symm
  have hpoint : g.seedPoint = g'.seedPoint := hback.unique hback'
  rw [Gen.seedPoint, Gen.seedPoint, hri] at hpoint
  have hrs : g.srecState = g'.srecState := seedInit_state_injective _ hpoint
  cases g
  cases g'
  simp only [Gen.mk.injEq]
  exact ⟨hstate, hinc, hpos, hrs, hri, hs.trans hs'.symm⟩

/-! ### SEEK and RESET (R169, R170) -/

theorem exec_seek_seeded {s : State} (hs : s.gen.seeded = true) : exec .seek s = .next (s.commit
    ((advanceFn (seedInit s.gen.srecState s.gen.srecInc) s.opPSigned).map fun g => (g, s.res))) := by
  rw [exec, execSeek, State.ifSeeded_of_seeded _ _ hs]

theorem exec_reset_seeded {s : State} (hs : s.gen.seeded = true) :
    exec .reset s = .next (s.succeed (seedInit s.gen.srecState s.gen.srecInc) s.res) := by
  rw [exec, execReset, State.ifSeeded_of_seeded _ _ hs, State.commit_ok]

/-- From the seed point, at position 0, every position is in range. -/
theorem advanceFn_seedInit (ss si : U128) (p : U256) : advanceFn (seedInit ss si) p.toInt = .ok {
    state := moveState (si ||| 1) p.toInt (seedInit ss si).state
    inc := si ||| 1
    pos := p
    srecState := ss
    srecInc := si ||| 1
    seeded := true } := by
  have hpos : (seedInit ss si).pos.toInt + p.toInt = p.toInt := zero_add _
  obtain ⟨hlow, hhigh⟩ := pos_range p
  rw [advanceFn_ok _ _ (by rwa [hpos]) (by rwa [hpos]), hpos, BitVec.ofInt_toInt, seedInit_inc, seedInit_srecState,
    seedInit_srecInc, seedInit_seeded]

/-- Settles O44: SEEK moves from the seed point, in raw steps. -/
theorem seekGoesToThePosition : Obligations.SeekGoesToThePosition := by
  refine ⟨decode_encode .seek, fun s => ⟨exec_unseeded s rfl, fun inc hs hinc => ?_⟩⟩
  rw [hinc, ← seedInit_state]
  refine ⟨_, moveState_reaches _ _ _, ?_⟩
  rw [exec_seek_seeded hs, State.opPSigned, advanceFn_seedInit, Except.map, State.commit_ok, State.succeed]

/-- Settles O45: RESET succeeds with SeedInit's generator, which SEEK does not move when P = 0. -/
theorem resetIsSeekZero : Obligations.ResetIsSeekZero := by
  refine ⟨decode_encode .reset, fun s => ⟨exec_unseeded s rfl, fun inc hs hinc => ?_, fun hP => ?_⟩⟩
  · rw [hinc, exec_reset_seeded hs, ← seedInit_state]
    rfl
  · cases hs : s.gen.seeded with
    | false => rw [exec_unseeded s rfl hs, exec_unseeded s rfl hs]
    | true =>
      have hzero : s.opPSigned = 0 := by rw [State.opPSigned, hP]; rfl
      rw [exec_reset_seeded hs, exec_seek_seeded hs, hzero, advanceFn, if_pos rfl, Except.map, State.commit_ok]

/-! ### JUMPED (R171) -/

theorem exec_jumped_seeded {s : State} (hs : s.gen.seeded = true) : exec .jumped s = .next (s.commit
    ((advanceFn s.gen (s.opPSigned * s.jump.toNat)).map fun c => (s.gen, s.res.setClone c))) := by
  rw [exec, execJumped, State.ifSeeded_of_seeded _ _ hs]

/-- R, S and Q of the bank JUMPED leaves are the clone's state, increment and position. -/
theorem Bank.setClone_views (b : Bank) (c : Gen) :
    ((b.setClone c).r1 ++ (b.setClone c).r0 : U128) = c.state ∧ ((b.setClone c).r3 ++ (b.setClone c).r2 : U128) = c.inc ∧
      ((b.setClone c).r7 ++ (b.setClone c).r6 ++ (b.setClone c).r5 ++ (b.setClone c).r4 : U256) = c.pos :=
  ⟨hi64_append_lo64 c.state, hi64_append_lo64 c.inc, words_append c.pos⟩

/-- Settles O46: the clone is what `AdvanceFn` answers, and the result bank holds it. -/
theorem jumpedDeliversTheClone : Obligations.JumpedDeliversTheClone := by
  refine ⟨decode_encode .jumped, fun s delta hdelta => ⟨exec_unseeded s rfl, fun hs hout => ?_, fun hs hlow hhigh => ?_⟩⟩
  · rw [exec_jumped_seeded hs, ← hdelta, advanceFn_error _ _ hout, Except.map, State.commit_error, State.fail]
  · have hclone := advanceFn_ok s.gen delta hlow hhigh
    obtain ⟨hstate, hpos, hinc, -⟩ := advanceFn_eq_ok hclone
    obtain ⟨hR, hS, hQ⟩ := s.res.setClone_views
      { s.gen with state := moveState s.gen.inc delta s.gen.state, pos := BitVec.ofInt 256 (s.gen.pos.toInt + delta) }
    refine ⟨_, ?_, hR ▸ hstate, hS.trans hinc, hQ ▸ hpos⟩
    rw [exec_jumped_seeded hs, ← hdelta, hclone, Except.map, State.commit_ok, State.succeed]

/-! ### IMPORT (R172, R173) -/

theorem exec_importRecord (s : State) :
    exec .importRecord s = .next (s.succeed (importGen s.opA s.opB s.opP) s.res) := rfl

/-- The seed state IMPORT derives is the only one whose seed point lies the imported position before the imported state. -/
theorem reaches_iff_importGen_srecState (st increment : U128) (p : U256) (v : U128) :
    Reaches (increment ||| 1) (seedInit v increment).state p.toInt st ↔ v = (importGen st increment p).srecState := by
  have hreaches : Reaches (increment ||| 1) (seedInit (importGen st increment p).srecState increment).state p.toInt st := by
    rw [← seedInit_or_one]
    exact importGen_reaches st increment p
  constructor
  · intro h
    exact seedInit_state_injective increment (h.symm.unique hreaches.symm)
  · rintro rfl
    exact hreaches

/-- Settles O47: the record's state is `importGen`'s, the only one that reaches A. -/
theorem importLoadsTheRecord : Obligations.ImportLoadsTheRecord := by
  refine ⟨decode_encode .importRecord, fun s inc hinc => ⟨(importGen s.opA s.opB s.opP).srecState, ?_, fun v => ?_⟩⟩
  · rw [hinc, exec_importRecord]
    rfl
  · rw [hinc, ← seedInit_state]
    exact reaches_iff_importGen_srecState s.opA s.opB s.opP v

/-- Settles O48: the imported generator and the one in place meet the invariants and agree on the live registers. -/
theorem importOfTheExportRestoresTheGenerator : Obligations.ImportOfTheExportRestoresTheGenerator := by
  intro s hinv hs hA hB hP
  have hodd : s.gen.inc ||| 1 = s.gen.inc := or_one_of_odd _ (hinv.incOdd hs)
  have hgen : importGen s.gen.state s.gen.inc s.gen.pos = s.gen :=
    (importGen_inv _ _ _).eq_of_live hinv rfl hs rfl hodd rfl
  rw [exec_importRecord, hA, hB, hP, hgen, State.succeed]

end Sys2Proof.Machine
end

section
/-! The outcome of a command as a function of the generator, the operands and the entropy draw (43_generator.md R177): two blocks that
agree on those end with the same generator, completion, code and written registers. -/

namespace Sys2Proof.Machine

/-! ### Inputs, results and outcomes -/

/-- Two states that agree on what a command reads: the generator and the operands; for SEED.ENTROPY the source, for JUMPED the parameter,
for BOUNDED the model's turn count (log 13). -/
structure SameInputs (i : Instr) (s s' : State) : Prop where
  gen : s.gen = s'.gen
  op : s.op = s'.op
  source : i = .seedEntropy → s.ent = s'.ent ∧ s.entropy = s'.entropy
  jump : i = .jumped → s.jump = s'.jump
  waited : i = .bounded → s.waited = s'.waited

/-- Two results of a command's scratch run (R17): one error, or one generator and one value in every result register the rule names. -/
inductive SameResult (i : Instr) : Except ECode (Gen × Bank) → Except ECode (Gen × Bank) → Prop where
  | error {c : ECode} (hc : c ≠ .ok) : SameResult i (.error c) (.error c)
  | ok {g g' : Gen} {r r' : Bank} (hg : g = g') (hr : ∀ j : Fin 8, .res j ∈ i.written → r.get j = r'.get j) :
      SameResult i (.ok (g, r)) (.ok (g', r'))

/-- Two states after a command's turn: both completed, alike in the code and in the result registers the rule names, or both pending. -/
inductive SameOutcome (i : Instr) (t t' : State) : Prop where
  | completed (hgen : t.gen = t'.gen) (hbusy : t.busy = t'.busy) (hecode : t.ecode = t'.ecode)
      (hres : t.ecode = .ok → ∀ j : Fin 8, .res j ∈ i.written → t.res.get j = t'.res.get j)
  | pending (hgen : t.gen = t'.gen) (hbusy : t.busy = true) (hbusy' : t'.busy = true)

/-! ### The window after a command -/

/-- The registers a rule names are generator registers and result registers. -/
theorem mem_written_cases {i : Instr} : ∀ r ∈ i.written, r ∈ generatorRegs ∨ ∃ j, r = .res j := by
  cases i <;> decide

theorem readReg_eq_of_gen_eq {t t' : State} (h : t.gen = t'.gen) {r : Reg} (hr : r ∈ generatorRegs) :
    t.readReg r = t'.readReg r := by
  cases r with
  | stateLo | stateHi | incLo | incHi | pos0 | pos1 | pos2 | pos3 | srecStateLo | srecStateHi | srecIncLo | srecIncHi =>
    simp only [State.readReg, h]
  | op j | res j => simp [generatorRegs, stateAndPosRegs] at hr
  | _ => exact absurd hr (by decide)

/-- R177's four clauses about an outcome, as the window shows it. -/
theorem SameOutcome.observed {i : Instr} {t t' : State} (h : SameOutcome i t t') :
    t.gen = t'.gen ∧ t.busy = t'.busy ∧ (t.busy = false → t.ecode = t'.ecode) ∧
      (t.busy = false → t.ecode = .ok → ∀ r ∈ i.written, t.readReg r = t'.readReg r) := by
  cases h with
  | completed hgen hbusy hecode hres =>
    refine ⟨hgen, hbusy, fun _ => hecode, fun _ hok r hr => ?_⟩
    rcases mem_written_cases r hr with hmem | ⟨j, rfl⟩
    · exact readReg_eq_of_gen_eq hgen hmem
    · exact hres hok j hr
  | pending hgen hbusy hbusy' =>
    have hnotIdle : t.busy ≠ false := by rw [hbusy]; decide
    exact ⟨hgen, hbusy.trans hbusy'.symm, fun h => absurd h hnotIdle, fun h => absurd h hnotIdle⟩

/-! ### How results become outcomes -/

namespace SameResult

/-- The same result committed, whatever else the two states hold (R212, R213). -/
theorem commit {i : Instr} {x x' : Except ECode (Gen × Bank)} (h : SameResult i x x') {e e' : State}
    (hgen : e.gen = e'.gen) : SameOutcome i (e.commit x) (e'.commit x') := by
  cases h with
  | error hc => exact .completed hgen rfl rfl fun hok => absurd hok hc
  | ok hg hr => exact .completed hg rfl rfl fun _ => hr

/-- The check for a seeded generator reads the generator alone. -/
theorem ifSeeded {i : Instr} {x x' : Except ECode (Gen × Bank)} (h : SameResult i x x') {s s' : State}
    (hgen : s.gen = s'.gen) : SameResult i (s.ifSeeded x) (s'.ifSeeded x') := by
  cases hs : s.gen.seeded with
  | false =>
    rw [State.ifSeeded_of_unseeded _ _ hs, State.ifSeeded_of_unseeded _ _ (hgen ▸ hs)]
    exact .error (by decide)
  | true => rwa [State.ifSeeded_of_seeded _ _ hs, State.ifSeeded_of_seeded _ _ (hgen ▸ hs)]

/-- One generator function's answer, put into two states' registers. -/
theorem map {i : Instr} {α : Type} {y : Except ECode α} (hy : ∀ c, y = .error c → c = .posRange) {f f' : α → Gen × Bank}
    (hg : ∀ a, (f a).1 = (f' a).1) (hr : ∀ a (j : Fin 8), .res j ∈ i.written → (f a).2.get j = (f' a).2.get j) :
    SameResult i (y.map f) (y.map f') := by
  cases y with
  | error c => exact .error (by rw [hy c rfl]; decide)
  | ok a => exact .ok (hg a) (hr a)

end SameResult

/-! ### The result registers a rule names -/

theorem res_notMem_written : ∀ i ∈ [Instr.nop, .seedPair, .seedState, .seedEntropy, .advance, .seek, .reset, .importRecord],
    ∀ j : Fin 8, Reg.res j ∉ i.written := by decide

theorem eq_zero_of_res_mem_written : ∀ i ∈ [Instr.next64, .nextF64, .bounded, .dxsm],
    ∀ j : Fin 8, Reg.res j ∈ i.written → j = 0 := by decide

theorem lt_two_of_res_mem_written : ∀ j : Fin 8, Reg.res j ∈ Instr.written .inv → j < 2 := by decide

theorem lt_four_of_res_mem_written : ∀ i ∈ [Instr.affPow, .affComp], ∀ j : Fin 8, Reg.res j ∈ i.written → j < 4 := by decide

theorem Bank.get_set_zero_congr (b b' : Bank) (v : Word) {j : Fin 8} (h : j = 0) : (b.set 0 v).get j = (b'.set 0 v).get j := by
  rw [h, Bank.get_set_same, Bank.get_set_same]

theorem Bank.get_setR_congr (b b' : Bank) (v : U128) (j : Fin 8) (h : j < 2) : (b.setR v).get j = (b'.setR v).get j :=
  match j with
  | 0 | 1 => rfl
  | 2 | 3 | 4 | 5 | 6 | 7 => absurd h (by decide)

theorem Bank.get_setAffine_congr (b b' : Bank) (a : Affine) (j : Fin 8) (h : j < 4) :
    (b.setAffine a).get j = (b'.setAffine a).get j :=
  match j with
  | 0 | 1 | 2 | 3 => rfl
  | 4 | 5 | 6 | 7 => absurd h (by decide)

theorem Bank.get_setClone_congr (b b' : Bank) (c : Gen) (j : Fin 8) : (b.setClone c).get j = (b'.setClone c).get j :=
  match j with
  | 0 | 1 | 2 | 3 | 4 | 5 | 6 | 7 => rfl

/-! ### The commands -/

theorem drawInto_sameResult {i : Instr} (hi : i ∈ [Instr.next64, .nextF64, .bounded, .dxsm]) {s s' : State}
    (hgen : s.gen = s'.gen) (f : Word → Word) : SameResult i (drawInto s f) (drawInto s' f) := by
  rw [drawInto, drawInto, hgen]
  exact .map (fun _ => rawDraw_eq_error) (fun _ => rfl) fun _ j hj =>
    Bank.get_set_zero_congr _ _ _ (eq_zero_of_res_mem_written i hi j hj)

/-- A command that only moves a generator to `advanceFn`'s answer names no result register. -/
theorem advanceFn_sameResult {i : Instr} (hi : ∀ j : Fin 8, Reg.res j ∉ i.written) (g : Gen) (d : Int) (r r' : Bank) :
    SameResult i ((advanceFn g d).map fun c => (c, r)) ((advanceFn g d).map fun c => (c, r')) :=
  .map (fun _ => advanceFn_eq_error) (fun _ => rfl) fun _ j hj => absurd hj (hi j)

theorem execBounded_sameOutcome {s s' t t' : State} (hin : SameInputs .bounded s s') (hA : s.opA = s'.opA)
    (hb : s.busy = true) (hb' : s'.busy = true) (h : execBounded s = .next t) (h' : execBounded s' = .next t') :
    SameOutcome .bounded t t' := by
  cases h
  cases h'
  rw [hin.gen, hA, hin.waited rfl]
  split_ifs
  · exact (SameResult.error (by decide)).commit hin.gen
  · cases hl : lemire (Config.lemireFuel + s'.waited) s'.gen s'.opA.toNat with
    | done r g =>
      exact (SameResult.ok rfl fun j hj => Bank.get_set_zero_congr _ _ _
        (eq_zero_of_res_mem_written .bounded (by decide) j hj)).commit hin.gen
    | failed c => exact (SameResult.error (by rw [lemire_eq_failed hl]; decide)).commit hin.gen
    | unfinished => exact .pending hin.gen hb hb'
  · exact (SameResult.error (by decide)).commit hin.gen

theorem execSeedEntropy_sameOutcome {s s' t t' : State} (hin : SameInputs .seedEntropy s s') (hb : s.busy = true)
    (hb' : s'.busy = true) (h : execSeedEntropy s = .next t) (h' : execSeedEntropy s' = .next t') :
    SameOutcome .seedEntropy t t' := by
  obtain ⟨hent, hentropy⟩ := hin.source rfl
  cases h
  cases h'
  rw [hent, hentropy]
  split_ifs
  · cases s'.entropy with
    | bytes e =>
      exact (SameResult.ok rfl fun j hj => absurd hj (res_notMem_written .seedEntropy (by decide) j)).commit
        (e := s.consultEntropy) (e' := s'.consultEntropy) hin.gen
    | unavailable =>
      exact (SameResult.error (by decide)).commit (e := s.consultEntropy) (e' := s'.consultEntropy) hin.gen
    | silent => exact .pending hin.gen hb hb'
  · exact (SameResult.error (by decide)).commit hin.gen

/-- What a command's turn ends with is a function of what the command reads. -/
theorem exec_sameOutcome {i : Instr} {s s' t t' : State} (hin : SameInputs i s s') (hb : s.busy = true) (hb' : s'.busy = true)
    (h : exec i s = .next t) (h' : exec i s' = .next t') : SameOutcome i t t' := by
  have hgen := hin.gen
  have hA : s.opA = s'.opA := by simp only [State.opA, hin.op]
  have hB : s.opB = s'.opB := by simp only [State.opB, hin.op]
  have hC : s.opC = s'.opC := by simp only [State.opC, hin.op]
  have hD : s.opD = s'.opD := by simp only [State.opD, hin.op]
  have hP : s.opP = s'.opP := by simp only [State.opP, hin.op]
  have hsigned : s.opPSigned = s'.opPSigned := congrArg BitVec.toInt hP
  have hnone (hi : i ∈ [Instr.nop, .seedPair, .seedState, .seedEntropy, .advance, .seek, .reset, .importRecord]) (r r' : Bank) :
      ∀ j : Fin 8, .res j ∈ i.written → r.get j = r'.get j := fun j hj => absurd hj (res_notMem_written i hi j)
  cases i <;> simp only [exec] at h h'
  case seedEntropy => exact execSeedEntropy_sameOutcome hin hb hb' h h'
  case bounded => exact execBounded_sameOutcome hin hA hb hb' h h'
  all_goals
    cases h
    cases h'
    refine SameResult.commit ?_ hgen
  case nop => exact .ok hgen (hnone (by decide) _ _)
  case seedPair => exact .ok (by rw [hA, hB]) (hnone (by decide) _ _)
  case seedState => exact .ok (by rw [hA]) (hnone (by decide) _ _)
  case importRecord => exact .ok (by rw [hA, hB, hP]) (hnone (by decide) _ _)
  case next64 | nextF64 => exact (drawInto_sameResult (by decide) hgen _).ifSeeded hgen
  case advance | seek =>
    rw [hgen, hsigned]
    exact (advanceFn_sameResult (res_notMem_written _ (by decide)) _ _ _ _).ifSeeded hgen
  case reset => exact (SameResult.ok (by rw [hgen]) (hnone (by decide) _ _)).ifSeeded hgen
  case jumped =>
    rw [hsigned, hin.jump rfl, hgen]
    exact (SameResult.map (fun _ => advanceFn_eq_error) (fun _ => rfl) fun c j _ =>
      Bank.get_setClone_congr _ _ c j).ifSeeded hgen
  case inv =>
    rw [hA]
    split
    · exact .ok hgen fun j hj => Bank.get_setR_congr _ _ _ j (lt_two_of_res_mem_written j hj)
    · exact .error (by decide)
  case affPow =>
    rw [hA, hB, hP]
    exact .ok hgen fun j hj => Bank.get_setAffine_congr _ _ _ j (lt_four_of_res_mem_written _ (by decide) j hj)
  case affComp =>
    rw [hA, hB, hC, hD]
    exact .ok hgen fun j hj => Bank.get_setAffine_congr _ _ _ j (lt_four_of_res_mem_written _ (by decide) j hj)
  case dxsm =>
    rw [hA]
    exact .ok hgen fun j hj => Bank.get_set_zero_congr _ _ _ (eq_zero_of_res_mem_written _ (by decide) j hj)

/-- Settles O60: agreeing inputs give agreeing outcomes, and the window shows those alike. -/
theorem outcomeIsAFunctionOfGeneratorAndOperands : Obligations.OutcomeIsAFunctionOfGeneratorAndOperands :=
  fun _ _ _ _ _ hb hb' hgen hop hsource hjump hwaited h h' =>
    (exec_sameOutcome ⟨hgen, hop, hsource, hjump, hwaited⟩ hb hb' h h').observed

end Sys2Proof.Machine
end

section
/-! Bounded sampling (44_bounded.md R200 to R203): what one turn of BOUNDED does for each end of the Lemire loop, the turns a long loop
takes, and the accepted raw draws of an outcome, counted. -/

namespace Sys2Proof.Machine

/-! ### One turn of BOUNDED (R200, R202) -/

/-- BOUNDED passes its two checks, E_UNSEEDED and E_BOUND, and enters the Lemire loop (R200). -/
structure State.BoundedEnters (s : State) : Prop where
  /-- No E_UNSEEDED. -/
  seeded : s.gen.seeded = true
  /-- No E_BOUND for 0. -/
  bound_pos : 1 ≤ s.opA.toNat
  /-- No E_BOUND past 2^64. -/
  bound_le : s.opA.toNat ≤ 2 ^ 64

theorem exec_bounded_of_bound {s : State} (hs : s.gen.seeded = true) (hA : s.opA.toNat = 0 ∨ 2 ^ 64 < s.opA.toNat) :
    exec .bounded s = .next (s.fail .bound) := by
  rw [exec, execBounded, if_pos hs, if_pos hA, State.commit_error]

namespace State.BoundedEnters

variable {s : State} (h : s.BoundedEnters)
include h

theorem bound_legal : ¬ (s.opA.toNat = 0 ∨ s.opA.toNat > 2 ^ 64) := by
  obtain ⟨-, hpos, hle⟩ := h
  omega

theorem exec_of_done {r : Word} {g : Gen} (hl : lemire (Config.lemireFuel + s.waited) s.gen s.opA.toNat = .done r g) :
    exec .bounded s = .next (s.succeed g (s.res.set 0 r)) := by
  simp only [exec, execBounded, if_pos h.seeded, if_neg h.bound_legal, hl, State.commit_ok]

theorem exec_of_failed {c : ECode} (hl : lemire (Config.lemireFuel + s.waited) s.gen s.opA.toNat = .failed c) :
    exec .bounded s = .next (s.fail c) := by
  simp only [exec, execBounded, if_pos h.seeded, if_neg h.bound_legal, hl, State.commit_error]

theorem exec_of_unfinished (hl : lemire (Config.lemireFuel + s.waited) s.gen s.opA.toNat = .unfinished) :
    exec .bounded s = .next s.stillPending := by
  simp only [exec, execBounded, if_pos h.seeded, if_neg h.bound_legal, hl]

/-- The first accepted draw within the turn's fuel ends the loop (R115). -/
theorem exec_of_firstAccepted {k : Nat} (hk : FirstAccepted s.gen s.opA.toNat k) (hf : k ≤ Config.lemireFuel + s.waited)
    (hroom : s.gen.pos.toInt + (k + 1) ≤ posMax) : exec .bounded s = .next
      (s.succeed (afterDraws s.gen (k + 1)) (s.res.set 0 (lemireResult s.opA.toNat (nthDraw s.gen k)))) :=
  h.exec_of_done (lemire_done _ _ _ _ h.bound_pos hk hf hroom)

/-- A turn whose draws are all rejected leaves the command pending (R202). -/
theorem exec_of_noneAccepted (hk : NoneAcceptedBefore s.gen s.opA.toNat (Config.lemireFuel + s.waited + 1))
    (hroom : s.gen.pos.toInt + (Config.lemireFuel + s.waited + 1 : Nat) ≤ posMax) :
    exec .bounded s = .next s.stillPending :=
  h.exec_of_unfinished (lemire_unfinished _ _ _ h.bound_pos hk (by push_cast at *; omega))

end State.BoundedEnters

/-- The completed state of BOUNDED, field by field. -/
theorem succeed_afterDraws (s : State) (k : Nat) : s.succeed (afterDraws s.gen (k + 1))
    (s.res.set 0 (lemireResult s.opA.toNat (nthDraw s.gen k))) = { s with
      gen := { s.gen with
        state := forward s.gen.inc (k + 1) s.gen.state
        pos := s.gen.pos + BitVec.ofNat 256 (k + 1) }
      res := { s.res with r0 := BitVec.ofNat 64 ((nthDraw s.gen k).toNat * s.opA.toNat / 2 ^ 64) }
      ecode := .ok, busy := false, waited := 0 } := by
  rw [afterDraws_eq]
  rfl

/-- Settles O33: within the turn's fuel the Lemire loop ends at its first accepted draw. -/
theorem boundedReturnsTheFirstAcceptedDraw : Obligations.BoundedReturnsTheFirstAcceptedDraw :=
  ⟨decode_encode .bounded, fun s k hs hpos hle hk hf hroom =>
    (State.BoundedEnters.exec_of_firstAccepted ⟨hs, hpos, hle⟩ hk hf hroom).trans (congrArg _ (succeed_afterDraws s k))⟩

/-- Settles O34: the two checks in turn, then the loop that fails at the end of the position's range. -/
theorem boundedErrors : Obligations.BoundedErrors := fun s =>
  ⟨exec_unseeded s rfl, exec_bounded_of_bound, fun k hs hpos hle hk hf hend =>
    State.BoundedEnters.exec_of_failed ⟨hs, hpos, hle⟩ (lemire_failed _ _ _ k hpos hk hf hend)⟩

/-- Settles O35: the loop is unfinished, and a pending turn counts itself only. -/
theorem boundedOutOfFuelIsNotCompleted : Obligations.BoundedOutOfFuelIsNotCompleted := fun _ hs hpos hle hk hroom =>
  State.BoundedEnters.exec_of_noneAccepted ⟨hs, hpos, hle⟩ hk hroom

/-! ### The turns of a long loop (R202, R262) -/

/-- A pending BOUNDED whose first accepted draw lies at most `d` draws past the turn's fuel completes within `d + 1` turns: a turn
that does not complete it gives the next one a draw more. -/
theorem run_bounded_completes (d : Nat) {s : State} {k : Nat} (h : s.BoundedEnters) (hbusy : s.busy = true)
    (hdecode : decode s.cmd = .ok .bounded) (hschedule : s.schedule = []) (hk : FirstAccepted s.gen s.opA.toNat k)
    (hf : k ≤ Config.lemireFuel + s.waited + d) (hroom : s.gen.pos.toInt + (k + 1) ≤ posMax) :
    ∃ n ≤ d + 1, Sys2Proof.core.run n s = .next
      (s.succeed (afterDraws s.gen (k + 1)) (s.res.set 0 (lemireResult s.opA.toNat (nthDraw s.gen k)))) := by
  have hstep : step s = exec .bounded s := (step_nil hschedule).trans (engineTurn_busy s _ hbusy hdecode)
  by_cases hnow : k ≤ Config.lemireFuel + s.waited
  · refine ⟨1, by omega, ?_⟩
    rw [run_succ 0 (hstep.trans (h.exec_of_firstAccepted hk hnow hroom)), run_zero]
  · have hpending : step s = .next s.stillPending :=
      hstep.trans (h.exec_of_noneAccepted (fun j hj => hk.2 j (by omega)) (by push_cast; omega))
    cases d with
    | zero => omega
    | succ d =>
      obtain ⟨n, hn, hrun⟩ := run_bounded_completes d (s := s.stillPending) ⟨h.seeded, h.bound_pos, h.bound_le⟩ hbusy hdecode
        hschedule hk (by rw [State.stillPending_waited]; omega) hroom
      exact ⟨n + 1, by omega, (run_succ n hpending).trans hrun⟩

/-- Settles O36: the first accepted draw `k` lies at most `k` draws past any fuel. -/
theorem boundedCompletesWhenItsLoopEnds : Obligations.BoundedCompletesWhenItsLoopEnds := by
  intro s k hbusy hcmd hschedule hs hpos hle hk hroom
  rw [← succeed_afterDraws]
  exact run_bounded_completes k ⟨hs, hpos, hle⟩ hbusy (hcmd ▸ decode_encode .bounded) hschedule hk (by omega) hroom

/-! ### The outcome is below the bound (R203) -/

/-- Code 0 after a completed BOUNDED means that both checks passed and the loop answered RES0. -/
theorem lemire_of_exec_bounded {s t : State} (hbusy : s.busy = true) (h : exec .bounded s = .next t) (hidle : t.busy = false)
    (hok : t.ecode = .ok) :
    s.BoundedEnters ∧ lemire (Config.lemireFuel + s.waited) s.gen s.opA.toNat = .done t.res.r0 t.gen := by
  cases hs : s.gen.seeded with
  | false =>
    rw [exec_unseeded s rfl hs] at h
    cases h
    cases hok
  | true =>
    by_cases hA : s.opA.toNat = 0 ∨ 2 ^ 64 < s.opA.toNat
    · rw [exec_bounded_of_bound hs hA] at h
      cases h
      cases hok
    · have henters : s.BoundedEnters := ⟨hs, by omega, by omega⟩
      refine ⟨henters, ?_⟩
      cases hl : lemire (Config.lemireFuel + s.waited) s.gen s.opA.toNat with
      | done r g =>
        rw [henters.exec_of_done hl] at h
        cases h
        rfl
      | failed c =>
        rw [henters.exec_of_failed hl, lemire_eq_failed hl] at h
        cases h
        cases hok
      | unfinished =>
        rw [henters.exec_of_unfinished hl] at h
        cases h
        exact absurd (hbusy.symm.trans hidle) (by decide)

/-- Settles O37: every result of the loop is some draw's, and those are below the bound. -/
theorem boundedOutcomeIsBelowTheBound : Obligations.BoundedOutcomeIsBelowTheBound := fun s t hbusy h hidle hok => by
  obtain ⟨henters, hl⟩ := lemire_of_exec_bounded hbusy h hidle hok
  obtain ⟨⟨x, hx⟩, -⟩ := lemire_eq_done hl
  rw [hx]
  exact lemireResult_lt _ x henters.bound_pos henters.bound_le

/-! ### The accepted draws of an outcome (R115, R203)

A draw `x` is accepted with result `r` when `bd * x` lies in the last `2 ^ 64 - t` numbers of the `r`-th block of `2 ^ 64`. That length
is `bd * (2 ^ 64 / bd)`, so these draws are `2 ^ 64 / bd` numbers in a row. -/

/-- The threshold is the part of 2^64 that the bound does not divide (R201). -/
theorem lemireThreshold_eq_mod {bd : Nat} (hle : bd ≤ 2 ^ 64) : lemireThreshold bd = 2 ^ 64 % bd :=
  (Nat.mod_eq_sub_mod hle).symm

theorem lemireResult_eq_iff {bd : Nat} (hle : bd ≤ 2 ^ 64) (x r : Word) :
    lemireResult bd x = r ↔ bd * x.toNat / 2 ^ 64 = r.toNat := by
  have hquot : bd * x.toNat / 2 ^ 64 < 2 ^ 64 := by
    have hprod : bd * x.toNat < 2 ^ 64 * 2 ^ 64 := Nat.mul_lt_mul_of_le_of_lt hle x.isLt (by norm_num)
    omega
  rw [← BitVec.toNat_inj, lemireResult, lemireProduct, BitVec.toNat_ofNat, Nat.mul_comm, Nat.mod_eq_of_lt hquot]

/-- The accepted draws of an outcome lie in a row. -/
theorem accepts_with_result_iff {bd : Nat} (h0 : 0 < bd) (hle : bd ≤ 2 ^ 64) (x r : Word) :
    Accepts bd x ∧ lemireResult bd x = r ↔
      x.toNat ∈ Finset.Ico ((r.toNat * 2 ^ 64 + lemireThreshold bd) ⌈/⌉ bd) ((r.toNat * 2 ^ 64 + 2 ^ 64) ⌈/⌉ bd) := by
  rw [lemireResult_eq_iff hle, accepts_iff, lemireLow, lemireProduct, Nat.mul_comm x.toNat, Finset.mem_Ico,
    ceilDiv_le_iff_le_mul h0, ← not_le (b := x.toNat), ceilDiv_le_iff_le_mul h0]
  have ht : lemireThreshold bd < 2 ^ 64 := (lemireThreshold_lt bd h0).trans_le hle
  generalize bd * x.toNat = m
  omega

/-- That row's length. -/
theorem accepted_row_length {bd : Nat} (h0 : 0 < bd) (hle : bd ≤ 2 ^ 64) (a : Nat) :
    (a + 2 ^ 64) ⌈/⌉ bd = (a + lemireThreshold bd) ⌈/⌉ bd + 2 ^ 64 / bd := by
  have hsplit : a + 2 ^ 64 + bd - 1 = a + lemireThreshold bd + bd - 1 + bd * (2 ^ 64 / bd) := by
    have := Nat.mod_add_div (2 ^ 64) bd
    rw [lemireThreshold_eq_mod hle]
    omega
  rw [Nat.ceilDiv_eq_add_pred_div, Nat.ceilDiv_eq_add_pred_div, hsplit, Nat.add_mul_div_left _ _ h0]

/-- The row ends before 2^64. -/
theorem accepted_row_end_le {bd : Nat} (h0 : 0 < bd) {r : Nat} (hr : r < bd) : (r * 2 ^ 64 + 2 ^ 64) ⌈/⌉ bd ≤ 2 ^ 64 := by
  rw [ceilDiv_le_iff_le_mul h0, ← Nat.succ_mul]
  exact Nat.mul_le_mul_right _ hr

/-- Settles O38: as numbers the draws are the row of `2 ^ 64 / bd` numbers, all of them below 2^64. -/
theorem lemireSamplingIsUnbiased : Obligations.LemireSamplingIsUnbiased := fun bd r h0 hle hr => by
  set row := Finset.Ico ((r.toNat * 2 ^ 64 + lemireThreshold bd) ⌈/⌉ bd) ((r.toNat * 2 ^ 64 + 2 ^ 64) ⌈/⌉ bd) with hrow
  have himage : BitVec.toNat '' {x : Word | Accepts bd x ∧ lemireResult bd x = r} = row := by
    ext m
    constructor
    · rintro ⟨x, hx, rfl⟩
      exact (accepts_with_result_iff h0 hle x r).mp hx
    · intro hm
      have hlt : m < 2 ^ 64 := (Finset.mem_Ico.mp hm).2.trans_le (accepted_row_end_le h0 hr)
      have hnat : (BitVec.ofNat 64 m).toNat = m := by rw [BitVec.toNat_ofNat, Nat.mod_eq_of_lt hlt]
      exact ⟨BitVec.ofNat 64 m, (accepts_with_result_iff h0 hle _ r).mpr (hnat.symm ▸ hm), hnat⟩
  rw [← Set.ncard_image_of_injective _ BitVec.toNat_injective, himage, Set.ncard_coe_finset, hrow, Nat.card_Ico,
    accepted_row_length h0 hle, Nat.add_sub_cancel_left]

end Sys2Proof.Machine
end

section
/-! Control (45_control.md R210 to R216): NOP, the issue of a command, the accesses that find one pending, and the engine's turn that
runs or fails it. -/

namespace Sys2Proof.Machine

/-! ### NOP (R210) -/

theorem exec_nop (s : State) : exec .nop s = .next (s.succeed s.gen s.res) := rfl

/-- Settles O23: NOP commits the generator and the results it found. -/
theorem nopWritesOnlyEcode : Obligations.NopWritesOnlyEcode := ⟨Laws.RoundTrip.nop.1, exec_nop⟩

/-! ### The issue of a command and its turn (R211, R212, R216) -/

/-- Settles O15, by the effect of a CMD write on an idle block. -/
theorem cmdWriteIssues : Obligations.CmdWriteIssues := fun _ w _ hb hs =>
  step_write_reg (r := .cmd) hs (writeReg_cmd_idle _ w hb)

/-- Settles O6: each of the three is the engine's turn, which runs the decoded command. -/
theorem stepRunsTheDecodedCommand : Obligations.StepRunsTheDecodedCommand := fun s i hb hd =>
  ⟨fun hs => (step_nil hs).trans (engineTurn_busy s i hb hd),
    fun _ hs => (step_engine hs).trans (engineTurn_busy _ i hb hd),
    fun _ hs => (step_wait_busy hs hb).trans (engineTurn_busy s i hb hd)⟩

/-! ### Accesses while a command is pending (R214, R215) -/

/-- While BUSY = 1 a write can change nothing but OVR. -/
theorem writeReg_busy {s : State} (hb : s.busy = true) (v : Word) (r : Reg) : ∃ o, s.writeReg v r = { s with ovr := o } := by
  rcases writeReg_cases s v r with ⟨h, -⟩ | ⟨-, hidle, -⟩ | ⟨_, -, hidle, -⟩ | ⟨h, -⟩ | h
  · exact ⟨true, h⟩
  · exact absurd (hb.symm.trans hidle) (by decide)
  · exact absurd (hb.symm.trans hidle) (by decide)
  · exact ⟨false, h⟩
  · exact ⟨s.ovr, h⟩

/-- Settles O21: a read leaves only its reply, and a write while BUSY = 1 can only change OVR besides. -/
theorem pendingCommandIsUntouchedByAccesses : Obligations.PendingCommandIsUntouchedByAccesses := by
  rintro s t e rest hb hs (⟨off, size, rfl⟩ | ⟨off, size, v, rfl⟩) h
  · rw [step_read hs] at h
    obtain ⟨r, -, -, rfl⟩ := hostRead_eq_next h
    exact ⟨rfl, rfl, rfl, rfl, hb, rfl, rfl, rfl, rfl⟩
  · rw [step_write hs] at h
    obtain ⟨r, -, -, rfl⟩ := hostWrite_eq_next h
    obtain ⟨o, ho⟩ := writeReg_busy (s := { s with schedule := rest }) hb v r
    rw [ho]
    exact ⟨rfl, rfl, rfl, rfl, hb, rfl, rfl, rfl, rfl⟩

/-- OVR rises only by a dropped write. -/
theorem writeReg_raises_ovr {s : State} {v : Word} {r : Reg} (hs : s.ovr = false) (ht : (s.writeReg v r).ovr = true) :
    s.busy = true ∧ (r = .cmd ∨ ∃ i, r = .op i) := by
  have hkept : (s.writeReg v r).ovr ≠ s.ovr := by rw [hs, ht]; decide
  rcases writeReg_cases s v r with ⟨-, hdropped⟩ | ⟨h, -⟩ | ⟨i, h, -⟩ | ⟨h, -⟩ | h
  · exact hdropped
  · exact absurd (congrArg State.ovr h) hkept
  · exact absurd (congrArg State.ovr h) hkept
  · exact absurd ((congrArg State.ovr h).trans hs.symm) hkept
  · exact absurd (congrArg State.ovr h) hkept

theorem engineTurn_ovr {s t : State} (h : s.engineTurn = .next t) : t.ovr = s.ovr := by
  rcases engineTurn_cases h with ⟨-, rfl⟩ | ⟨-, i, -, hexec⟩ | ⟨-, -, rfl⟩
  · rfl
  · obtain ⟨-, -, hovr, -⟩ := (exec_ends hexec).frame
    exact hovr
  · rfl

/-- A step that raises OVR is a write to CMD or OPi while BUSY = 1. -/
theorem step_raises_ovr {s t : State} (h : step s = .next t) (hs : s.ovr = false) (ht : t.ovr = true) :
    s.busy = true ∧ ∃ r v rest, s.schedule = .hostWrite (Reg.offset r) 8 v :: rest ∧ (r = .cmd ∨ ∃ i, r = .op i) := by
  have hrises : t.ovr ≠ s.ovr := by rw [hs, ht]; decide
  cases step_cases h with
  | engine l _ h => exact absurd (engineTurn_ovr h) hrises
  | read r rest _ h => exact absurd (congrArg State.ovr h) hrises
  | write r v rest hw h =>
    subst h
    obtain ⟨hb, hr⟩ := writeReg_raises_ovr (s := { s with schedule := rest }) hs ht
    exact ⟨hb, r, v, rest, hw, hr⟩
  | hardwareReset rest _ h => exact absurd ((congrArg State.ovr h).trans hs.symm) hrises

/-- Settles O17: the writes by the effect of the register they reach, and the converse by what a step can do. -/
theorem writesWhileBusyAreDropped : Obligations.WritesWhileBusyAreDropped := by
  refine ⟨fun s off v rest hb hoff hs => ?_, fun s v rest _ hv hs => ?_, fun s r v rest _ hr hs => ?_, fun s t h hs ht => ?_⟩
  · rcases hoff with rfl | ⟨i, rfl⟩
    · exact step_write_reg (r := .cmd) hs (writeReg_cmd_busy _ v hb)
    · exact step_write_reg (r := .op i) hs (writeReg_op_busy _ i v hb)
  · rw [step_write_reg (r := .status) hs (writeReg_status _ v), hv, Bool.not_true, Bool.and_false]
  · refine step_write_reg hs (writeReg_readOnly _ v ?_ ?_ fun i => ?_) <;> rintro rfl <;> cases hr
  · obtain ⟨hb, r, v, rest, hw, hr⟩ := step_raises_ovr h hs ht
    refine ⟨hb, r.offset, v, rest, hw, ?_⟩
    rcases hr with rfl | ⟨i, rfl⟩
    · exact .inl rfl
    · exact .inr ⟨i, rfl⟩

/-! ### Failure (R213) -/

/-- While BUSY = 1 a step that is no access and no reset is the engine's turn, whatever it leaves of the schedule. -/
theorem step_eq_engineTurn {s : State} (hb : s.busy = true)
    (hs : s.schedule = [] ∨ (∃ rest, s.schedule = .engine :: rest) ∨ ∃ rest, s.schedule = .hostWait :: rest) :
    ∃ l, step s = State.engineTurn { s with schedule := l } := by
  rcases hs with hs | ⟨rest, hs⟩ | ⟨rest, hs⟩
  · exact ⟨s.schedule, step_nil hs⟩
  · exact ⟨rest, step_engine hs⟩
  · exact ⟨s.schedule, step_wait_busy hs hb⟩

/-- A turn that completes with an error code is `State.fail`, at most after a consultation of the entropy source. -/
theorem engineTurn_fails {s t : State} (hb : s.busy = true) (h : s.engineTurn = .next t) (hidle : t.busy = false)
    (hcode : t.ecode ≠ .ok) : ∃ e c, (e = s ∨ e = s.consultEntropy) ∧ t = e.fail c := by
  rcases engineTurn_cases h with ⟨hidle', -⟩ | ⟨-, i, -, hexec⟩ | ⟨-, -, ht⟩
  · exact absurd (hb.symm.trans hidle') (by decide)
  · cases exec_ends hexec with
    | pending _ ht => subst ht; exact absurd (hb.symm.trans hidle) (by decide)
    | failed e c he _ ht => exact ⟨e, c, he.imp_right And.right, ht⟩
    | succeeded e g r _ ht => subst ht; exact absurd rfl hcode
  · exact ⟨s, .illegal, .inl rfl, ht⟩

/-- Settles O54: the turn is a failure, whose writes are those of `State.fail` and of a consultation of the source. -/
theorem failureWritesOnlyEcodeAndBusy : Obligations.FailureWritesOnlyEcodeAndBusy := fun s t hb hs h hidle hcode => by
  obtain ⟨l, hl⟩ := step_eq_engineTurn hb hs
  obtain ⟨e, c, rfl | rfl, rfl⟩ :=
    engineTurn_fails (s := { s with schedule := l }) hb (hl.symm.trans h) hidle hcode
  · rfl
  · rfl

end Sys2Proof.Machine
end

section
/-! Outcomes and progress (60_exceptions.md R220, R221, R224 to R226, R234): the idle block, runs that never stop, and which codes a
command reports. -/

namespace Sys2Proof.Machine

/-! ### The idle block (R234) -/

/-- Settles O7: an idle engine's turn answers the state it finds. -/
theorem idleBlockDoesNothing : Obligations.IdleBlockDoesNothing := fun s hidle =>
  ⟨fun hs => (step_nil hs).trans (engineTurn_idle s hidle), fun _ hs => (step_engine hs).trans (engineTurn_idle _ hidle)⟩

/-! ### Runs that never stop (R224, R226) -/

theorem writeReg_schedule (s : State) (v : Word) (r : Reg) : (s.writeReg v r).schedule = s.schedule := by
  rcases writeReg_cases s v r with ⟨h, -⟩ | ⟨h, -⟩ | ⟨i, h, -⟩ | ⟨h, -⟩ | h <;> rw [h] <;> rfl

/-- A step takes at most the next event off the schedule, and schedules nothing. -/
theorem step_schedule_suffix {s t : State} (h : step s = .next t) : t.schedule <:+ s.schedule := by
  cases step_cases h with
  | engine l hs h =>
    obtain ⟨hl, -⟩ := engineTurn_frame h
    rw [hl]
    rcases hs with rfl | hs
    · exact List.suffix_rfl
    · exact hs ▸ List.suffix_cons _ _
  | read r rest hs h =>
    subst h
    rcases hs with hs | ⟨hs, -⟩ <;> exact hs ▸ List.suffix_cons _ _
  | write r v rest hs h =>
    subst h
    rw [writeReg_schedule, hs]
    exact List.suffix_cons _ _
  | hardwareReset rest hs h =>
    subst h
    rw [State.hardwareReset_schedule, hs]
    exact List.suffix_cons _ _

/-- An accepted access reaches some register. -/
theorem exists_reg_of_accepted {off size : Nat} (h : (checkAccess off size).toBool = true) :
    ∃ r, checkAccess off size = .ok r := by
  cases hc : checkAccess off size with
  | ok r => exact ⟨r, rfl⟩
  | error f => rw [hc] at h; cases h

/-- A step whose event the bus accepts answers a next state: only a refused access stops the machine. -/
theorem step_answers_next {s : State} (hacc : ∀ e ∈ s.schedule, e.accepted = true) : ∃ t, step s = .next t := by
  cases hs : s.schedule with
  | nil => exact step_nil hs ▸ engineTurn_answers_next s
  | cons e rest =>
    have he : e.accepted = true := hacc e (hs ▸ List.mem_cons_self)
    cases e with
    | hostRead off size =>
      obtain ⟨r, hr⟩ := exists_reg_of_accepted he
      exact step_access_accepted (v := 0) (.inl hs) hr
    | hostWrite off size v =>
      obtain ⟨r, hr⟩ := exists_reg_of_accepted he
      exact step_access_accepted (.inr hs) hr
    | hostWait =>
      cases hb : s.busy with
      | false => exact ⟨_, step_wait_idle hs hb⟩
      | true => exact step_wait_busy hs hb ▸ engineTurn_answers_next s
    | hardwareReset => exact ⟨_, step_hardwareReset hs⟩
    | engine => exact step_engine hs ▸ engineTurn_answers_next _

/-- Settles O9, by induction on the steps: each answers, and leaves only events that were scheduled before. -/
theorem acceptedRunsNeverStop : Obligations.AcceptedRunsNeverStop := by
  intro n
  induction n with
  | zero => exact fun s _ => ⟨s, run_zero s⟩
  | succ n ih =>
    intro s hacc
    obtain ⟨t, ht⟩ := step_answers_next hacc
    obtain ⟨u, hu⟩ := ih t fun e he => hacc e ((step_schedule_suffix ht).subset he)
    exact ⟨u, (run_succ n ht).trans hu⟩

/-! ### The codes a command reports (R220, R221) -/

theorem unseeded_mem_mayReport {i : Instr} : i.needsSeeded = true → ECode.unseeded ∈ i.mayReport := by
  cases i <;> decide

/-- Success, or a code of the command's row of R220 past the check for a seeded generator (R221). -/
abbrev ReportsPastCheck (i : Instr) (c : ECode) : Prop := c = .ok ∨ (c ∈ i.mayReport ∧ c ≠ .unseeded)

section PastCheck

variable {i : Instr} {s t : State}

theorem commit_reportsPastCheck {x : Except ECode (Gen × Bank)} (hx : ∀ c, x = .error c → ReportsPastCheck i c) :
    ReportsPastCheck i (s.commit x).ecode := by
  cases x with
  | error c => exact hx c rfl
  | ok gr => exact .inl rfl

/-- A command that needs a seeded generator, has one, and commits what a generator function answers. -/
theorem commit_map_reportsPastCheck {α : Type} {y : Except ECode α} {f : α → Gen × Bank} (hs : s.gen.seeded = true)
    (hy : ∀ c, y = .error c → ReportsPastCheck i c) : ReportsPastCheck i (s.commit (s.ifSeeded (y.map f))).ecode := by
  rw [State.ifSeeded_of_seeded _ _ hs]
  cases y with
  | error c => exact hy c rfl
  | ok a => exact .inl rfl

theorem exec_bounded_reportsPastCheck (hs : s.gen.seeded = true) (hb : s.busy = true) (h : exec .bounded s = .next t)
    (hidle : t.busy = false) : ReportsPastCheck .bounded t.ecode := by
  by_cases hA : s.opA.toNat = 0 ∨ 2 ^ 64 < s.opA.toNat
  · rw [exec_bounded_of_bound hs hA] at h
    cases h
    exact (by decide : ReportsPastCheck .bounded .bound)
  · have henters : s.BoundedEnters := ⟨hs, by omega, by omega⟩
    cases hl : lemire (Config.lemireFuel + s.waited) s.gen s.opA.toNat with
    | done r g =>
      rw [henters.exec_of_done hl] at h
      cases h
      exact .inl rfl
    | failed c =>
      rw [henters.exec_of_failed hl, lemire_eq_failed hl] at h
      cases h
      exact (by decide : ReportsPastCheck .bounded .posRange)
    | unfinished =>
      rw [henters.exec_of_unfinished hl] at h
      cases h
      exact absurd (hb.symm.trans hidle) (by decide)

theorem exec_seedEntropy_reportsPastCheck (hb : s.busy = true) (h : exec .seedEntropy s = .next t)
    (hidle : t.busy = false) : ReportsPastCheck .seedEntropy t.ecode := by
  have hnone : ReportsPastCheck .seedEntropy .noEntropy := by decide
  cases hent : s.ent with
  | false =>
    rw [exec_seedEntropy_absent hent] at h
    cases h
    exact hnone
  | true =>
    cases he : s.entropy with
    | unavailable =>
      rw [exec_seedEntropy_unavailable hent he] at h
      cases h
      exact hnone
    | bytes e =>
      rw [exec_seedEntropy_bytes hent he] at h
      cases h
      exact .inl rfl
    | silent =>
      rw [exec_seedEntropy_silent hent he] at h
      cases h
      exact absurd (hb.symm.trans hidle) (by decide)

/-- Past the check for a seeded generator a command reports success or another code of its row. -/
theorem exec_reportsPastCheck (hs : i.needsSeeded = true → s.gen.seeded = true) (hb : s.busy = true)
    (h : exec i s = .next t) (hidle : t.busy = false) : ReportsPastCheck i t.ecode := by
  cases i
  case bounded => exact exec_bounded_reportsPastCheck (hs rfl) hb h hidle
  case seedEntropy => exact exec_seedEntropy_reportsPastCheck hb h hidle
  all_goals cases h
  case nop | seedPair | seedState | importRecord | affPow | affComp | dxsm => exact .inl rfl
  case next64 | nextF64 =>
    exact commit_map_reportsPastCheck (hs rfl) fun c hc => by rw [rawDraw_eq_error hc]; decide
  case advance | jumped =>
    exact commit_map_reportsPastCheck (hs rfl) fun c hc => by rw [advanceFn_eq_error hc]; decide
  case seek =>
    refine commit_map_reportsPastCheck (hs rfl) fun c hc => ?_
    rw [State.opPSigned, advanceFn_seedInit] at hc
    cases hc
  case reset =>
    rw [State.ifSeeded_of_seeded _ _ (hs rfl)]
    exact .inl rfl
  case inv =>
    refine commit_reportsPastCheck fun c hc => ?_
    split at hc <;> cases hc
    decide

end PastCheck

/-- Settles O55: a missing generator is reported first, and past that check E_UNSEEDED is not reported. -/
theorem outcomeCodesByCommand : Obligations.OutcomeCodesByCommand := by
  intro i s t hb h hidle
  by_cases hmissing : i.needsSeeded = true ∧ s.gen.seeded = false
  · obtain ⟨hi, hs⟩ := hmissing
    rw [exec_unseeded s hi hs] at h
    cases h
    exact ⟨.inr (unseeded_mem_mayReport hi), iff_of_true rfl ⟨hi, hs⟩⟩
  · have hs : i.needsSeeded = true → s.gen.seeded = true := by simpa using hmissing
    rcases exec_reportsPastCheck hs hb h hidle with hok | ⟨hmem, hne⟩
    · exact ⟨.inl hok, iff_of_false (by rw [hok]; decide) hmissing⟩
    · exact ⟨.inr hmem, iff_of_false hne hmissing⟩

end Sys2Proof.Machine
end

section
/-! Hardware reset (70_reset_and_hazards.md R250): what each register of the window shows after it. -/

namespace Sys2Proof.Machine

/-- Outside STATUS and JUMP_DISTANCE, where the parameters show, nothing of the state before is left in the window (R41). -/
theorem readReg_hardwareReset (s : State) {r : Reg} (hstatus : r ≠ .status) (hlo : r ≠ .jumpLo) (hhi : r ≠ .jumpHi) :
    s.hardwareReset.readReg r = State.reset.readReg r := by
  cases r with
  | status => exact absurd rfl hstatus
  | jumpLo => exact absurd rfl hlo
  | jumpHi => exact absurd rfl hhi
  | _ => rfl

/-- Settles O2: the step answers `hardwareReset` of the state without the event, whatever command was pending. -/
theorem hardwareResetSetsEveryRegister : Obligations.HardwareResetSetsEveryRegister := fun _ _ h =>
  ⟨_, step_hardwareReset h, fun _ => readReg_hardwareReset _, State.hardwareReset_gen _, State.hardwareReset_busy _,
    State.hardwareReset_ecode _, State.hardwareReset_ovr _, congrArg Gen.seeded (State.hardwareReset_gen _),
    State.hardwareReset_ent _, State.hardwareReset_jump _, State.hardwareReset_schedule _⟩

end Sys2Proof.Machine
end
